-- ==== Sys2Proof/Word.lean ====
section
/-! DEFINITION. The word types of the machine (`00_scope.md` rule R8). The two other fixed sizes of that rule,
`MEM_SIZE` = 256 and `NUM_REGS` = 8, are written as these numbers where the rules write them. -/

namespace Sys2Proof

/-- A memory cell, a register, an operand byte: 8 bits, unsigned (rules R8, R15, R32). -/
abbrev Byte := BitVec 8

/-- The index of one of the eight general registers (rule R15). -/
abbrev RegIdx := Fin 8

/-- `SP_INDEX`: R7 is the stack pointer (rules R8, R18). -/
abbrev spIndex : RegIdx := 7

end Sys2Proof
end

