-- ==== Sys2Proof/Config.lean ====
section
/-! DEFINITION. The named parameters of the block (`00_scope.md` rule R8) and the one free value. Their
default values are in Decode.lean and Machine/Defaults.lean. -/

namespace Sys2Proof

/-- `OPCODE_MAP`: the opcode byte of each instruction (`30_encoding.md` rule R50). The source gives no byte
value (92 D7), so the map is a parameter. UNVERIFIED, unsafe for claims about byte images: log entry 2. -/
structure OpcodeMap where
  ldi  : Byte
  prn  : Byte
  hlt  : Byte
  add  : Byte
  mul  : Byte
  push : Byte
  pop  : Byte
  call : Byte
  ret  : Byte
  cmp  : Byte
  jmp  : Byte
  jeq  : Byte
  jne  : Byte
  sub  : Byte
  div  : Byte
deriving DecidableEq, Repr

/-- The four parameters of rule R8 that stay open to a model. -/
structure Params where
  /-- `SP_INIT`, legal range 1..255 (92 D5). -/
  spInit       : Byte
  /-- `OPCODE_MAP` (92 D7). -/
  opcodeMap    : OpcodeMap
  /-- `ALU_EXT`: whether SUB and DIV are decoded (92 D8, rule R78). -/
  aluExt       : Bool
  /-- `TRACE_ENABLED`: whether the trace hook writes (92 D23, rule R69). It changes no state. -/
  traceEnabled : Bool
deriving DecidableEq, Repr

/-- The line-end character written after each printed value: rule R71 does not specify it, and 93 I12 gives
it as any value. DESIGN CHOICE, safe: a free value, log entry 10. -/
opaque Config.lineEnd : Char

end Sys2Proof
end

