-- ==== Sys2Proof/Syntax.lean ====
section
/-! DEFINITION. The instruction set as syntax: the fifteen rows of `spec/opcode_table.json`. -/

namespace Sys2Proof

/-- The names of the fifteen instructions, in the order of the opcode table. -/
inductive Mnemonic where
  | ldi | prn | hlt | add | mul | push | pop | call | ret | cmp | jmp | jeq | jne | sub | div
deriving DecidableEq, Repr

/-- A decoded instruction. An operand is the raw operand byte (`30_encoding.md` rule R49): a register index
is checked against 8 when the instruction executes, with no bits masked off (`10_state.md` rule R16). -/
inductive Instr where
  | ldi  (ra imm : Byte)
  | prn  (ra : Byte)
  | hlt
  | add  (ra rb : Byte)
  | mul  (ra rb : Byte)
  | push (ra : Byte)
  | pop  (ra : Byte)
  | call (ra : Byte)
  | ret
  | cmp  (ra rb : Byte)
  | jmp  (ra : Byte)
  | jeq  (ra : Byte)
  | jne  (ra : Byte)
  | sub  (ra rb : Byte)
  | div  (ra rb : Byte)
deriving DecidableEq, Repr

/-- Every mnemonic, in table order. -/
def Mnemonic.all : List Mnemonic :=
  [.ldi, .prn, .hlt, .add, .mul, .push, .pop, .call, .ret, .cmp, .jmp, .jeq, .jne, .sub, .div]

/-- SUB and DIV are decoded only when `ALU_EXT` (rule R78). -/
def Mnemonic.needsAluExt : Mnemonic → Bool
  | .sub | .div => true
  | .ldi | .prn | .hlt | .add | .mul | .push | .pop | .call | .ret | .cmp | .jmp | .jeq | .jne => false

/-- The name of an instruction. -/
def Instr.mnemonic : Instr → Mnemonic
  | .ldi _ _ => .ldi
  | .prn _   => .prn
  | .hlt     => .hlt
  | .add _ _ => .add
  | .mul _ _ => .mul
  | .push _  => .push
  | .pop _   => .pop
  | .call _  => .call
  | .ret     => .ret
  | .cmp _ _ => .cmp
  | .jmp _   => .jmp
  | .jeq _   => .jeq
  | .jne _   => .jne
  | .sub _ _ => .sub
  | .div _ _ => .div

/-- The operand bytes an instruction carries, in encoding order (rules R48, R49). -/
def Instr.operands : Instr → List Byte
  | .ldi ra imm => [ra, imm]
  | .prn ra     => [ra]
  | .hlt        => []
  | .add ra rb  => [ra, rb]
  | .mul ra rb  => [ra, rb]
  | .push ra    => [ra]
  | .pop ra     => [ra]
  | .call ra    => [ra]
  | .ret        => []
  | .cmp ra rb  => [ra, rb]
  | .jmp ra     => [ra]
  | .jeq ra     => [ra]
  | .jne ra     => [ra]
  | .sub ra rb  => [ra, rb]
  | .div ra rb  => [ra, rb]

/-- The operand bytes that are register indices: all of them but LDI's immediate (rule R49). -/
def Instr.registerOperands : Instr → List Byte
  | .ldi ra _   => [ra]
  | .prn ra     => [ra]
  | .hlt        => []
  | .add ra rb  => [ra, rb]
  | .mul ra rb  => [ra, rb]
  | .push ra    => [ra]
  | .pop ra     => [ra]
  | .call ra    => [ra]
  | .ret        => []
  | .cmp ra rb  => [ra, rb]
  | .jmp ra     => [ra]
  | .jeq ra     => [ra]
  | .jne ra     => [ra]
  | .sub ra rb  => [ra, rb]
  | .div ra rb  => [ra, rb]

end Sys2Proof
end

