-- ==== Sys2Proof/WellFormed.lean ====
section
/-! DEFINITION. Which instructions and parameters are well formed. -/

namespace Sys2Proof

/-- Every register-index operand is below 8 (`10_state.md` rule R16, `30_encoding.md` rule R54). An
immediate is always legal (rule R49). -/
abbrev Instr.wf (i : Instr) : Prop := ∀ b ∈ i.registerOperands, b.toNat < 8

/-- The opcode byte the map gives an instruction name. -/
def OpcodeMap.byteOf (m : OpcodeMap) : Mnemonic → Byte
  | .ldi  => m.ldi
  | .prn  => m.prn
  | .hlt  => m.hlt
  | .add  => m.add
  | .mul  => m.mul
  | .push => m.push
  | .pop  => m.pop
  | .call => m.call
  | .ret  => m.ret
  | .cmp  => m.cmp
  | .jmp  => m.jmp
  | .jeq  => m.jeq
  | .jne  => m.jne
  | .sub  => m.sub
  | .div  => m.div

/-- The names the decoder knows: all fifteen when `ALU_EXT`, else the thirteen of the source's table
(rules R50, R78). -/
def decodedMnemonics (aluExt : Bool) : List Mnemonic :=
  Mnemonic.all.filter fun k => aluExt || !k.needsAluExt

/-- No two decoded instructions share an opcode byte: rule R50's closed set of distinct bytes. -/
abbrev OpcodeMap.wf (m : OpcodeMap) (aluExt : Bool) : Prop :=
  ((decodedMnemonics aluExt).map m.byteOf).Nodup

/-- Legal parameters: `SP_INIT` is in 1..255 (rule R8) and the opcode map is unambiguous. -/
abbrev Params.wf (p : Params) : Prop := p.spInit ≠ 0 ∧ p.opcodeMap.wf p.aluExt

end Sys2Proof
end

