-- ==== Sys2Proof/Decode.lean ====
section
/-! DEFINITION. Decoding bytes to instructions, and the encoder (`30_encoding.md`). -/

namespace Sys2Proof

/-- The default `OPCODE_MAP`: the byte values of rule R50. UNVERIFIED (the spec has them from general
knowledge, 92 D7), unsafe: log entry 2. -/
def OpcodeMap.ls8 : OpcodeMap where
  ldi  := 0x82
  prn  := 0x47
  hlt  := 0x01
  add  := 0xA0
  mul  := 0xA2
  push := 0x45
  pop  := 0x46
  call := 0x50
  ret  := 0x11
  cmp  := 0xA7
  jmp  := 0x54
  jeq  := 0x55
  jne  := 0x56
  sub  := 0xA1
  div  := 0xA3

/-- How many operand bytes follow the opcode (rule R50, column count). -/
def Mnemonic.operandCount : Mnemonic → Nat
  | .hlt | .ret => 0
  | .prn | .push | .pop | .call | .jmp | .jeq | .jne => 1
  | .ldi | .add | .mul | .cmp | .sub | .div => 2

/-- An instruction's length in bytes (rules R47, R52). -/
def Instr.length (i : Instr) : Nat := 1 + i.mnemonic.operandCount

/-- Look an opcode byte up in the map: the whole byte is matched, no field of it is decoded (rules R50,
R51, R61). -/
def OpcodeMap.lookup (m : OpcodeMap) (aluExt : Bool) (b : Byte) : Option Mnemonic :=
  (decodedMnemonics aluExt).find? fun k => m.byteOf k == b

/-- The instruction a name and its operand bytes make (rules R48, R49). A name that takes fewer operands
ignores the rest. -/
def Instr.build (k : Mnemonic) (op1 op2 : Byte) : Instr :=
  match k with
  | .ldi  => .ldi op1 op2
  | .prn  => .prn op1
  | .hlt  => .hlt
  | .add  => .add op1 op2
  | .mul  => .mul op1 op2
  | .push => .push op1
  | .pop  => .pop op1
  | .call => .call op1
  | .ret  => .ret
  | .cmp  => .cmp op1 op2
  | .jmp  => .jmp op1
  | .jeq  => .jeq op1
  | .jne  => .jne op1
  | .sub  => .sub op1 op2
  | .div  => .div op1 op2

/-- Why bytes do not decode. -/
inductive DecodeError where
  /-- There is no opcode byte. -/
  | noOpcode
  /-- The opcode byte is in no row of the map (rule R53). -/
  | unknownOpcode (b : Byte)
  /-- The bytes end before operand `k` (k = 1, 2) of the instruction with this opcode. -/
  | missingOperand (opcode : Byte) (k : Nat)
deriving DecidableEq, Repr

/-- Decode the first instruction of a byte list; the rest of the list follows it (rules R47, R52, R61). An
unknown opcode is reported before any operand byte is looked at. -/
def decode (m : OpcodeMap) (aluExt : Bool) : List Byte → Except DecodeError (Instr × List Byte)
  | [] => .error .noOpcode
  | b :: rest =>
    match m.lookup aluExt b with
    | none => .error (.unknownOpcode b)
    | some k =>
      match k.operandCount, rest with
      | 0, _ => .ok (.build k 0 0, rest)
      | 1, [] => .error (.missingOperand b 1)
      | 1, o1 :: rest' => .ok (.build k o1 0, rest')
      | _, [] => .error (.missingOperand b 1)
      | _, [_] => .error (.missingOperand b 2)
      | _, o1 :: o2 :: rest' => .ok (.build k o1 o2, rest')

/-- The bytes of an instruction: its opcode byte, then its operand bytes in order (rules R47, R48). -/
def encode (m : OpcodeMap) (i : Instr) : List Byte := m.byteOf i.mnemonic :: i.operands

/-- The first three bytes of a word numbered as the opcode table numbers it: byte k holds bits 8k+7..8k
(rule R48). Bits at or above `nbits` are 0. Three bytes are the longest instruction. -/
def tableWordBytes (nbits w : Nat) : List Byte :=
  [BitVec.ofNat 8 (w % 2 ^ nbits), BitVec.ofNat 8 (w % 2 ^ nbits / 2 ^ 8), BitVec.ofNat 8 (w % 2 ^ nbits / 2 ^ 16)]

/-- What the decoder reads from a word of the opcode table. The table's words are those of the default map,
and its SUB and DIV rows are decoded when `ALU_EXT`, so both are taken here (log entry 7). -/
def decodeTableWord (nbits w : Nat) : Option Instr :=
  match decode .ls8 true (tableWordBytes nbits w) with
  | .ok (i, _) => some i
  | .error _ => none

end Sys2Proof
end

