-- ==== Sys2Proof/Machine/Defaults.lean ====
section
/-! DEFINITION. The default parameters and the reset values (`10_state.md` rule R31). -/

namespace Sys2Proof.Machine

/-- The defaults of rule R8: `SP_INIT` = 0xF4, the map of rule R50, `ALU_EXT` and `TRACE_ENABLED` false
(log entries 1, 2 and 3). -/
def defaultParams : Params where
  spInit       := 0xF4
  opcodeMap    := .ls8
  aluExt       := false
  traceEnabled := false

/-- What a memory cell holds that nothing has written: memory is "zero-initialized" (rules R31, R32). -/
def unlistedByte : Byte := 0

/-- The register file at reset: R0..R6 are 0 and R7 is `SP_INIT` (rule R31, 90 C1). -/
def resetRegs (p : Params) : Vector Byte 8 := #v[0, 0, 0, 0, 0, 0, 0, p.spInit]

/-- The program counter at reset: the entry point is address 0 (rules R31, R39). -/
def resetPc : Nat := 0

/-- `FL_RESET` (rules R8, R31). -/
def resetFl : Byte := 0

end Sys2Proof.Machine
end

