-- ==== Sys2Proof/Machine/State.lean ====
section
/-! DEFINITION. The machine's state as plain data (`10_state.md` rule R13), its fault records, and the reasons
a step can stop. -/

namespace Sys2Proof.Machine

/-- Memory as the listed cells, in one canonical form (`Memory.wf`, in Ops.lean): addresses strictly rising,
none above 255, no cell listed with the value an unlisted address reads as. -/
abbrev Memory := List Host.Cell

/-- What was accessed out of its bounds (`60_exceptions.md` rule R95, field `space`). -/
inductive Space where
  | memory | register | stack
deriving DecidableEq, Repr

/-- The five error kinds (rule R93). -/
inductive ErrorKind where
  | unknownOpcode | addressOutOfRange | unsupportedAluOperation | divisionByZero | malformedProgramLine
deriving DecidableEq, Repr

/-- A fault record (rule R95): for each kind the fields that rule R93's column "recorded" gives it. -/
inductive FaultRecord where
  /-- Raised by decode (rule R61). -/
  | unknownOpcode (pc : Nat) (opcode : Byte)
  /-- Raised in the seven cases of rule R94. `loc` is the spec's field `where`: an integer, since -1 and 256
  occur. `opcode` is none when the fetch of the opcode byte itself fails. -/
  | addressOutOfRange (space : Space) (loc : Int) (pc : Nat) (opcode : Option Byte)
  /-- Raised by the ALU for an operation it does not have (rule R75). -/
  | unsupportedAluOperation (pc : Nat) (opcode : Byte)
  /-- Raised by DIV (rule R80). -/
  | divisionByZero (pc : Nat) (opcode : Byte)
  /-- Raised by the loader, before the first step (rule R108). -/
  | malformedProgramLine (line : Nat)
deriving DecidableEq, Repr

/-- The lifecycle of the block (`10_state.md` rule R27). The source's Running flag is `status = running`. -/
inductive Status where
  | running
  | halted
  | faulted (r : FaultRecord)
deriving DecidableEq, Repr

/-- The state `(mem, x, pc, FL, status, out)` of rule R13, and the parameters of rule R8, which no step
changes (log entry 1). -/
structure State where
  /-- 256 byte cells (rule R32). -/
  mem    : Memory
  /-- The general registers R0..R7; R7 is the stack pointer (rules R15, R18). -/
  x      : Vector Byte 8
  /-- The program counter, a natural number that does not wrap (rules R21, R22; log entry 13). -/
  pc     : Nat
  /-- The flags register: E is bit 0, bits 7:1 are 0 (rule R25; log entry 4). -/
  fl     : Byte
  /-- Running, Halted or Faulted (rule R27). -/
  status : Status
  /-- The values PRN has written, oldest first (rule R28). -/
  out    : List Byte
  /-- The machine's parameters (rule R8): configuration, not state of the spec's. -/
  params : Params
deriving DecidableEq, Repr

/-- Why a step stops. Only `step` raises these, and only in a state whose `status` is no longer Running:
there "the block has no step" (`40_loop.md` rule R65). No instruction's meaning raises one. Safe: the run has
already ended with the exit status of rule R106 (log entry 6). -/
inductive Fault where
  /-- Raised by `step` in a Halted state (rules R65, R105). Safe. -/
  | halted
  /-- Raised by `step` in a Faulted state (rules R65, R98). Safe. -/
  | faulted (r : FaultRecord)
deriving DecidableEq, Repr

/-- Why a step is refused. -/
inductive Refusal where
  /-- For an instruction without a meaning. No arm of `exec` raises it: every instruction has its meaning. -/
  | notModelled (mnemonic : String)
deriving DecidableEq, Repr

/-- What a step, or an instruction's meaning, answers. -/
abbrev Result := Host.Outcome State Fault Refusal

/-- The state after reset, before the loader writes the program image (rules R31, R109). -/
def State.reset : State where
  mem    := []
  x      := resetRegs defaultParams
  pc     := resetPc
  fl     := resetFl
  status := .running
  out    := []
  params := defaultParams

end Sys2Proof.Machine
end

