-- ==== Sys2Proof/Machine/Ops.lean ====
section
/-! DEFINITION. The named operations over memory, registers, the program counter, the status and the
output, and the one operation that takes an error (`60_exceptions.md` rule R97). There is no return from an
error beside it: rule R98 says the block has none. -/

namespace Sys2Proof.Machine

/-! ## The memory array (`20_memory.md` rules R32 to R34) -/

/-- The canonical form of a memory: addresses strictly rising, each in 0..255, no listed cell equal to what an
unlisted address reads as. -/
abbrev Memory.wf (m : Memory) : Prop :=
  m.Pairwise (fun c d => c.1 < d.1) ∧ ∀ c ∈ m, c.1 < 256 ∧ c.2 ≠ unlistedByte

/-- The byte in a cell. -/
def Memory.read : Memory → Nat → Byte
  | [], _ => unlistedByte
  | (b, w) :: m, a => if a = b then w else Memory.read m a

/-- A memory that starts with one cell, unless that cell is as an unlisted one. -/
def Memory.consCell (a : Nat) (v : Byte) (m : Memory) : Memory :=
  if v = unlistedByte then m else (a, v) :: m

/-- Set one cell, keeping the canonical form: writing the unlisted value removes the entry. -/
def Memory.write : Memory → Nat → Byte → Memory
  | [], a, v => Memory.consCell a v []
  | (b, w) :: m, a, v =>
    if a < b then Memory.consCell a v ((b, w) :: m)
    else if a = b then Memory.consCell a v m
    else (b, w) :: Memory.write m a v

/-- Set consecutive cells from an address up. -/
def Memory.writeFrom (m : Memory) (a : Nat) : List Byte → Memory
  | [] => m
  | v :: vs => Memory.writeFrom (m.write a v) (a + 1) vs

/-- `MemRead(a, 1)`: the byte at `a`, or none where it raises AddressOutOfRange, which is when `a` is not in
0..255 (rule R34). No address wraps. -/
def State.memRead (s : State) (a : Nat) : Option Byte :=
  if a < 256 then some (s.mem.read a) else none

/-- `MemWrite(a, 1, v)`, with the same bounds (rules R33, R34): none where it raises AddressOutOfRange. -/
def State.memWrite (s : State) (a : Nat) (v : Byte) : Option State :=
  if a < 256 then some { s with mem := s.mem.write a v } else none

/-- Store a byte at an 8-bit address. Every such address is in 0..255, so rule R34's check cannot fail. -/
def State.store (s : State) (a v : Byte) : State := { s with mem := s.mem.write a.toNat v }

/-- Read the byte at an 8-bit address. Every such address is in 0..255, so rule R34's check cannot fail. -/
def State.load (s : State) (a : Byte) : Byte := s.mem.read a.toNat

/-! ## The register file (`10_state.md` rules R15 to R18) -/

/-- Read register `r`. No register is hardwired (rule R15). -/
def State.reg (s : State) (r : RegIdx) : Byte := s.x[r]

/-- Write register `r`. -/
def State.setReg (s : State) (r : RegIdx) (v : Byte) : State := { s with x := s.x.set r v }

/-- The stack pointer: R7 and nothing else (rule R18). -/
def State.sp (s : State) : Byte := s.reg spIndex

/-! ## Program counter, flags, status, output -/

/-- The advance of `40_loop.md` rule R64 past an opcode byte and `n` operand bytes. It does not wrap. -/
def State.advance (s : State) (n : Nat) : State := { s with pc := s.pc + 1 + n }

/-- Redirect the program counter to an 8-bit target (`00_scope.md` rule R10, `10_state.md` rule R24). -/
def State.jumpTo (s : State) (target : Byte) : State := { s with pc := target.toNat }

/-- Write the flags register. -/
def State.setFl (s : State) (v : Byte) : State := { s with fl := v }

/-- `emit(v)`: append a value to the output stream (`10_state.md` rule R28). -/
def State.emit (s : State) (v : Byte) : State := { s with out := s.out ++ [v] }

/-- `halt()` (`41_register_and_system.md` rule R72). -/
def State.halt (s : State) : State := { s with status := .halted }

/-- `raise K(info)`: TAKING AN ERROR. The status becomes Faulted with the record and nothing else changes:
no register, flag, cell or output, and `pc` still holds the instruction's address. No state is saved and
control goes nowhere, since there is no handler, vector or cause register (rule R97). -/
def State.raise (s : State) (r : FaultRecord) : State := { s with status := .faulted r }

/-- The opcode byte that a fault record names for the instruction `k`: the byte the map gives it. A step has
looked `k` up by that very byte, so it is the byte fetched (DEDUCED, safe: log entry 12). -/
def State.opcodeOf (s : State) (k : Mnemonic) : Byte := s.params.opcodeMap.byteOf k

end Sys2Proof.Machine
end

