-- ==== Sys2Proof/Machine/Operands.lean ====
section
/-! DEFINITION. The operand forms: a register index (checked), and the stack, which is the only memory
addressing mode for data (`43_stack_and_call.md` rule R81). An immediate is its raw operand byte
(`30_encoding.md` rule R49) and needs no operation. -/

namespace Sys2Proof.Machine

/-- The register an operand byte selects: the whole byte is compared with 8 (`10_state.md` rule R16). -/
def regOf (b : Byte) : Option RegIdx :=
  if h : b.toNat < 8 then some ⟨b.toNat, h⟩ else none

/-- `if ra > 7: raise ARO(space=register, index=ra)`, else go on with the register (rule R16). -/
def State.withReg (s : State) (k : Mnemonic) (b : Byte) (body : RegIdx → Result) : Result :=
  match regOf b with
  | some r => body r
  | none => .next (s.raise (.addressOutOfRange .register b.toNat s.pc (some (s.opcodeOf k))))

/-- The address a push stores to: SP after its pre-decrement (rule R81). -/
def State.pushAddr (s : State) : Byte := s.sp - 1

/-- Whether a push is within the stack's bounds, 1 <= SP <= SP_INIT (`20_memory.md` rule R40). -/
def State.pushOk (s : State) : Bool := s.sp != 0 && s.sp.toNat ≤ s.params.spInit.toNat

/-- Whether a pop is within the stack's bounds, SP <= SP_INIT - 1 (rule R40). -/
def State.popOk (s : State) : Bool := s.sp.toNat < s.params.spInit.toNat

/-- The bounds check of PUSH and CALL (rule R40): outside the bounds, AddressOutOfRange with space stack and
address SP - 1, which is -1 at SP = 0. -/
def State.withPush (s : State) (k : Mnemonic) (body : Result) : Result :=
  if s.pushOk then body
  else .next (s.raise (.addressOutOfRange .stack (s.sp.toNat - 1) s.pc (some (s.opcodeOf k))))

/-- The bounds check of POP and RET (rule R40): outside the bounds, AddressOutOfRange with space stack and
address SP. Otherwise go on with the byte at SP. -/
def State.withPop (s : State) (k : Mnemonic) (body : Byte → Result) : Result :=
  if s.popOk then body (s.load s.sp)
  else .next (s.raise (.addressOutOfRange .stack s.sp.toNat s.pc (some (s.opcodeOf k))))

/-- `x[7] <- x[7] - 1` (rule R81). -/
def State.decSp (s : State) : State := s.setReg spIndex (s.sp - 1)

/-- `x[7] <- x[7] + 1` (rule R81). -/
def State.incSp (s : State) : State := s.setReg spIndex (s.sp + 1)

end Sys2Proof.Machine
end

