-- ==== Sys2Proof/Machine/Alu.lean ====
section
/-! DEFINITION. The ALU and its instructions ADD, MUL, SUB, DIV (`42_alu.md`). -/

namespace Sys2Proof.Machine

/-- What the ALU answers. -/
inductive AluResult where
  | value (v : Byte)
  /-- DIV by 0 (rule R74). -/
  | divisionByZero
  /-- The operation is none of ADD, SUB, MUL, DIV (rule R75). -/
  | unsupported
deriving DecidableEq, Repr

/-- The ALU on two unsigned bytes (rules R74, R75): the exact result, modulo 256; DIV is floor division.
Any operation outside the four is unsupported. -/
def aluApply (op : Mnemonic) (a b : Byte) : AluResult :=
  match op with
  | .add => .value (BitVec.ofNat 8 (a.toNat + b.toNat))
  | .sub => .value (BitVec.ofInt 8 ((a.toNat : Int) - (b.toNat : Int)))
  | .mul => .value (BitVec.ofNat 8 (a.toNat * b.toNat))
  | .div => if b = 0 then .divisionByZero else .value (BitVec.ofNat 8 (a.toNat / b.toNat))
  | .ldi | .prn | .hlt | .push | .pop | .call | .ret | .cmp | .jmp | .jeq | .jne => .unsupported

/-- `ALU.apply(op, ra, rb)` as an instruction (rule R73): check both indices, op1 first; read both registers;
write the result to `x[ra]`; advance past two operand bytes. -/
def State.alu (s : State) (op : Mnemonic) (ra rb : Byte) : Result :=
  s.withReg op ra fun a => s.withReg op rb fun b =>
    match aluApply op (s.reg a) (s.reg b) with
    | .value v => .next ((s.setReg a v).advance 2)
    | .divisionByZero => .next (s.raise (.divisionByZero s.pc (s.opcodeOf op)))
    | .unsupported => .next (s.raise (.unsupportedAluOperation s.pc (s.opcodeOf op)))

/-- ADD (rule R76). -/
def execAdd (ra rb : Byte) (s : State) : Result := s.alu .add ra rb

/-- MUL (rule R77; 90 C4: the same observable result as the ALU's). -/
def execMul (ra rb : Byte) (s : State) : Result := s.alu .mul ra rb

/-- SUB (rule R79), decoded only when `ALU_EXT`. -/
def execSub (ra rb : Byte) (s : State) : Result := s.alu .sub ra rb

/-- DIV (rule R80), decoded only when `ALU_EXT`. -/
def execDiv (ra rb : Byte) (s : State) : Result := s.alu .div ra rb

end Sys2Proof.Machine
end

