-- ==== Sys2Proof/Machine/Flags.lean ====
section
/-! DEFINITION. The flags register: CMP's computation and the two jump conditions (`10_state.md` rules R25,
R26). No other instruction reads or writes FL. -/

namespace Sys2Proof.Machine

/-- The value CMP gives FL: bit 0 is E, 1 when the operands are equal, and bits 7:1 are 0 (rules R25, R89). -/
def compareFlag (a b : Byte) : Byte := if a = b then 1 else 0

/-- JEQ's condition, FL = 1 (`44_compare_and_jump.md` rule R91). -/
def State.flEqual (s : State) : Bool := s.fl == 1

/-- JNE's condition, FL = 0 (rule R92). -/
def State.flNotEqual (s : State) : Bool := s.fl == 0

end Sys2Proof.Machine
end

