-- ==== Sys2Proof/Machine/Jump.lean ====
section
/-! DEFINITION. CMP, JMP, JEQ and JNE (`44_compare_and_jump.md`). -/

namespace Sys2Proof.Machine

/-- CMP (rule R89): the one instruction that writes FL. -/
def execCmp (ra rb : Byte) (s : State) : Result :=
  s.withReg .cmp ra fun a => s.withReg .cmp rb fun b =>
    .next ((s.setFl (compareFlag (s.reg a) (s.reg b))).advance 2)

/-- JMP (rule R90). -/
def execJmp (ra : Byte) (s : State) : Result :=
  s.withReg .jmp ra fun a => .next (s.jumpTo (s.reg a))

/-- JEQ (rule R91). The index is checked whether or not the jump is taken. -/
def execJeq (ra : Byte) (s : State) : Result :=
  s.withReg .jeq ra fun a => .next (if s.flEqual then s.jumpTo (s.reg a) else s.advance 1)

/-- JNE (rule R92). The index is checked whether or not the jump is taken. -/
def execJne (ra : Byte) (s : State) : Result :=
  s.withReg .jne ra fun a => .next (if s.flNotEqual then s.jumpTo (s.reg a) else s.advance 1)

end Sys2Proof.Machine
end

