-- ==== Sys2Proof/Machine/Stack.lean ====
section
/-! DEFINITION. PUSH, POP, CALL and RET (`43_stack_and_call.md`). Each runs its checks first, then its writes
in the order its rule lists them, each step seeing the writes before it (rule R82). -/

namespace Sys2Proof.Machine

/-- PUSH (rule R83): decrement SP, then store `x[ra]`, read after the decrement, at SP. -/
def execPush (ra : Byte) (s : State) : Result :=
  s.withReg .push ra fun a => s.withPush .push <|
    .next ((s.decSp.store s.pushAddr (s.decSp.reg a)).advance 1)

/-- POP (rule R84): read the byte at SP into `x[ra]`, then increment SP. Popping 255 into R7 raises, since
R7 would become 256. -/
def execPop (ra : Byte) (s : State) : Result :=
  s.withReg .pop ra fun a => s.withPop .pop fun v =>
    if a = spIndex ∧ v = 255 then
      .next (s.raise (.addressOutOfRange .stack 256 s.pc (some (s.opcodeOf .pop))))
    else .next ((s.setReg a v).incSp.advance 1)

/-- CALL (rule R85): decrement SP, store the return address `pc + 2` at SP, jump to `x[ra]`, read after the
decrement. A return address that does not fit in a byte raises (92 D24). -/
def execCall (ra : Byte) (s : State) : Result :=
  s.withReg .call ra fun a => s.withPush .call <|
    if 256 ≤ s.pc + 2 then
      .next (s.raise (.addressOutOfRange .memory (s.pc + 2) s.pc (some (s.opcodeOf .call))))
    else .next ((s.decSp.store s.pushAddr (BitVec.ofNat 8 (s.pc + 2))).jumpTo (s.decSp.reg a))

/-- RET (rule R86): read the byte at SP, increment SP, jump to the byte. -/
def execRet (s : State) : Result :=
  s.withPop .ret fun t => .next (s.incSp.jumpTo t)

end Sys2Proof.Machine
end

