-- ==== Sys2Proof/Machine/System.lean ====
section
/-! DEFINITION. LDI, PRN and HLT (`41_register_and_system.md`). -/

namespace Sys2Proof.Machine

/-- LDI (rule R70): `x[ra] <- imm`. -/
def execLdi (ra imm : Byte) (s : State) : Result :=
  s.withReg .ldi ra fun a => .next ((s.setReg a imm).advance 2)

/-- PRN (rule R71): append `x[ra]` to the output stream. -/
def execPrn (ra : Byte) (s : State) : Result :=
  s.withReg .prn ra fun a => .next ((s.emit (s.reg a)).advance 1)

/-- HLT (rule R72): the status becomes Halted; HLT does not set pc, so the advance applies (92 D17). -/
def execHlt (s : State) : Result := .next (s.halt.advance 0)

end Sys2Proof.Machine
end

