-- ==== Sys2Proof/Machine/Fetch.lean ====
section
/-! DEFINITION. Fetch, decode and operand fetch, in the order of `40_loop.md` rule R59, and the placing of a
table word where the next fetch reads it. -/

namespace Sys2Proof.Machine

/-- Operand fetch (rule R62): read operand byte `k` of the instruction at `pc`. -/
def State.fetchOperand (s : State) (opcode : Byte) (k : Nat) : Except FaultRecord Byte :=
  match s.memRead (s.pc + k) with
  | some b => .ok b
  | none => .error (.addressOutOfRange .memory (s.pc + k) s.pc (some opcode))

/-- Read the `n` operand bytes of an instruction named `k`, `pc+1` before `pc+2` (rules R62, R96). The block
never reads a byte past the instruction's length. -/
def State.fetchOperands (s : State) (opcode : Byte) (k : Mnemonic) : Except FaultRecord Instr :=
  match k.operandCount with
  | 0 => .ok (.build k 0 0)
  | 1 =>
    match s.fetchOperand opcode 1 with
    | .error r => .error r
    | .ok o1 => .ok (.build k o1 0)
  | _ =>
    match s.fetchOperand opcode 1 with
    | .error r => .error r
    | .ok o1 =>
      match s.fetchOperand opcode 2 with
      | .error r => .error r
      | .ok o2 => .ok (.build k o1 o2)

/-- Fetch and decode the instruction at `pc` (rules R59 to R62), or the record of the first error met: fetch
bounds, then an unknown opcode (no operand byte is read), then operand-fetch bounds (rule R96). -/
def State.fetchDecode (s : State) : Except FaultRecord Instr :=
  match s.memRead s.pc with
  | none => .error (.addressOutOfRange .memory s.pc s.pc none)
  | some b =>
    match s.params.opcodeMap.lookup s.params.aluExt b with
    | none => .error (.unknownOpcode s.pc b)
    | some k => s.fetchOperands b k

/-- The bytes of memory from an address up to the top of memory (rule R36). -/
def State.bytesFrom (s : State) (a : Nat) : List Byte :=
  (List.range' a (256 - a)).map s.mem.read

/-- Make the word of an opcode-table row the next instruction to run: its three bytes (the longest length) are
stored at `pc`. The fetch also needs a Running status; an address with room for three bytes, else address 0
is taken; the default opcode map, whose bytes the table holds; and `ALU_EXT` where the opcode is one that only
`ALU_EXT` decodes. Nothing else changes (log entry 7). -/
def State.placeWord (s : State) (nbits w : Nat) : State :=
  let bytes := tableWordBytes nbits w
  let pc := if s.pc + 3 ≤ 256 then s.pc else 0
  let isExt := match decodeTableWord nbits w with
    | some i => i.mnemonic.needsAluExt
    | none => false
  { s with
    mem := s.mem.writeFrom pc bytes
    pc := pc
    status := .running
    params := { s.params with opcodeMap := .ls8, aluExt := s.params.aluExt || isExt } }

end Sys2Proof.Machine
end

