-- ==== Sys2Proof/Machine/Step.lean ====
section
/-! DEFINITION. One iteration of the loop (`40_loop.md` rule R59). -/

namespace Sys2Proof.Machine

/-- One step: defined when `status = Running` (rules R59, R65). It fetches and decodes the instruction at
`pc`; an error there is taken; otherwise the instruction executes, and its meaning holds the advance of rule
R64. A Halted or Faulted block has no step. -/
def step (s : State) : Host.Outcome State Fault Refusal :=
  match s.status with
  | .running =>
    match s.fetchDecode with
    | .error r => .next (s.raise r)
    | .ok i => exec i s
  | .halted => .fault .halted
  | .faulted r => .fault (.faulted r)

/-- A state in which the very next step fetches and runs the opcode-table word `w` (log entry 7). -/
def State.withFetchWord (s : State) (nbits w : Nat) : State := s.placeWord nbits w

end Sys2Proof.Machine
end

