-- ==== Sys2Proof/Machine/Loader.lean ====
section
/-! DEFINITION. The loader: the load interface (`70_reset_and_hazards.md` rule R110), and the text form of a
program image (`30_encoding.md` rule R57, `60_exceptions.md` rule R108). It runs once, before the first step;
no step calls it. -/

namespace Sys2Proof.Machine

/-- The load interface: write a byte sequence of at most 256 bytes from address 0 up. Nothing but memory
changes. None for a longer sequence, which is a loader error (rules R108, R110). -/
def State.loadBytes (s : State) (bytes : List Byte) : Option State :=
  if bytes.length ≤ 256 then some { s with mem := s.mem.writeFrom 0 bytes } else none

/-- What one line of a program image is (rule R57). -/
inductive ImageLine where
  /-- Blank, or only a comment. -/
  | skip
  | byte (b : Byte)
  /-- None of these: MalformedProgramLine (rule R108). -/
  | malformed
deriving DecidableEq, Repr

/-- The white space that may stand around a literal. DESIGN CHOICE, unsafe: log entry 9. -/
def isBlankChar (c : Char) : Bool := c == ' ' || c == '\t' || c == '\r'

/-- Drop white space at both ends. -/
def trimBlank (l : List Char) : List Char :=
  ((l.dropWhile isBlankChar).reverse.dropWhile isBlankChar).reverse

/-- The value of a binary digit. -/
def binaryDigit (c : Char) : Option Nat :=
  if c = '0' then some 0 else if c = '1' then some 1 else none

/-- The value of a list of binary digits after those already read, most significant first. -/
def binaryValue (acc : Nat) : List Char → Option Nat
  | [] => some acc
  | c :: cs =>
    match binaryDigit c with
    | some d => binaryValue (2 * acc + d) cs
    | none => none

/-- Classify a line (rule R57): everything from a `#` on is ignored; what is left is blank, or a binary
literal of 8 digits, or malformed. -/
def classifyLine (line : List Char) : ImageLine :=
  let body := trimBlank (line.takeWhile (· != '#'))
  if body = [] then .skip
  else if body.length = 8 then
    match binaryValue 0 body with
    | some v => .byte (BitVec.ofNat 8 v)
    | none => .malformed
  else .malformed

/-- Read an image's lines in order, the first of them line number `n`, the next byte going to address `a`. The
answer is the byte sequence, or the number of the first offending line: a malformed one, or one whose byte
would be stored at 256 or beyond (rule R108). Where several lines offend, of one sort or of both, the first in line
order is reported, and no later line is looked at. DESIGN CHOICE, unsafe: log entry 17. -/
def parseImage (n a : Nat) : List (List Char) → Except Nat (List Byte)
  | [] => .ok []
  | line :: lines =>
    match classifyLine line with
    | .skip => parseImage (n + 1) a lines
    | .malformed => .error n
    | .byte b =>
      if a < 256 then
        match parseImage (n + 1) (a + 1) lines with
        | .ok bs => .ok (b :: bs)
        | .error e => .error e
      else .error n

/-- Load an image of text lines, numbered from 1 (DESIGN CHOICE, unsafe: log entry 9); the first offending one is
reported (DESIGN CHOICE, unsafe: log entry 17). An image that fails to load leaves a Faulted block, so no step runs
(rules R106, R108); memory is then as it was (DESIGN CHOICE: log entry 8). -/
def State.loadImage (s : State) (lines : List (List Char)) : State :=
  match parseImage 1 0 lines with
  | .ok bs => { s with mem := s.mem.writeFrom 0 bs }
  | .error n => s.raise (.malformedProgramLine n)

end Sys2Proof.Machine
end

