-- ==== Sys2Proof/Machine/Output.lean ====
section
/-! DEFINITION. What leaves the block (`40_loop.md` rule R58): the exit status, the output stream's text, and
the trace. None of it is read by any step. -/

namespace Sys2Proof.Machine

/-- The kind of a fault record (`60_exceptions.md` rules R93, R95). -/
def FaultRecord.kind : FaultRecord → ErrorKind
  | .unknownOpcode _ _ => .unknownOpcode
  | .addressOutOfRange _ _ _ _ => .addressOutOfRange
  | .unsupportedAluOperation _ _ => .unsupportedAluOperation
  | .divisionByZero _ _ => .divisionByZero
  | .malformedProgramLine _ => .malformedProgramLine

/-- The exit status of an error (rule R93; the numbers are 92 D11's). -/
def ErrorKind.exitCode : ErrorKind → Nat
  | .unknownOpcode => 1
  | .addressOutOfRange => 2
  | .unsupportedAluOperation => 3
  | .divisionByZero => 4
  | .malformedProgramLine => 5

/-- The exit status of a run (rule R106): none while it runs. -/
def State.exitStatus (s : State) : Option Nat :=
  match s.status with
  | .running => none
  | .halted => some 0
  | .faulted r => some r.kind.exitCode

/-- The decimal digit of a number below 10. -/
def decimalDigit (n : Nat) : Char := Char.ofNat (48 + n)

/-- A byte in unsigned decimal, with no leading zeros, sign or padding (`41_register_and_system.md` rule R71). -/
def decimalDigits (v : Byte) : List Char :=
  let n := v.toNat
  if n < 10 then [decimalDigit n]
  else if n < 100 then [decimalDigit (n / 10), decimalDigit (n % 10)]
  else [decimalDigit (n / 100), decimalDigit (n / 10 % 10), decimalDigit (n % 10)]

/-- The text of the output stream: each value's digits, then one line end (rule R71). The line end is a free
value (log entry 10). -/
def outputText (out : List Byte) : List Char :=
  out.flatMap fun v => decimalDigits v ++ [Config.lineEnd]

/-- The content of one trace line (`40_loop.md` rule R69). The line's format is unspecified (log entry 11). -/
structure TraceRecord where
  pc    : Nat
  /-- The bytes at `pc`, `pc+1` and `pc+2`; none where the address is above 255. -/
  bytes : List (Option Byte)
  regs  : Vector Byte 8
deriving DecidableEq, Repr

/-- What the trace hook writes before a step in this state: nothing unless `TRACE_ENABLED` and Running. It is
a function of the state and changes none (rule R69). -/
def State.trace (s : State) : Option TraceRecord :=
  if s.params.traceEnabled ∧ s.status = .running then
    some { pc := s.pc, bytes := [s.memRead s.pc, s.memRead (s.pc + 1), s.memRead (s.pc + 2)], regs := s.x }
  else none

end Sys2Proof.Machine
end

