-- ==== Sys2Proof/Machine/Run.lean ====
section
/-! DEFINITION. The end of a run and its observation (`40_loop.md` rules R66, R67). -/

namespace Sys2Proof.Machine

/-- What is observed of a run that has ended (rule R66). -/
inductive Observation where
  /-- It ended Halted: the final state's parts, with exit status 0. -/
  | succeeded (mem : Memory) (x : Vector Byte 8) (pc : Nat) (fl : Byte) (out : List Byte)
  /-- It ended Faulted: the record, the output written before the fault, and the fault's exit status. -/
  | failed (r : FaultRecord) (out : List Byte) (exit : Nat)
deriving DecidableEq, Repr

/-- The observation of a state, or none while it is Running. -/
def State.observe (s : State) : Option Observation :=
  match s.status with
  | .running => none
  | .halted => some (.succeeded s.mem s.x s.pc s.fl s.out)
  | .faulted r => some (.failed r s.out r.kind.exitCode)

/-- Run under fuel (rule R67): the observation if the run ends within `fuel` steps. None says the fuel ran
out, which is no halt. -/
def runFor : Nat → State → Option Observation
  | 0, s => s.observe
  | fuel + 1, s =>
    match s.observe with
    | some o => some o
    | none =>
      match step s with
      | .next t => runFor fuel t
      | .fault _ => none
      | .refused _ => none

end Sys2Proof.Machine
end

