-- ==== Sys2Proof/Safety.lean ====
section
/-! DEFINITION. The terms claims are written in: the invariant, and what a step keeps. -/

namespace Sys2Proof.Machine

/-- Every state the block reaches from a legal start has this form. -/
structure State.Inv (s : State) : Prop where
  /-- Memory is in canonical form: 256 cells and no more (`20_memory.md` rule R32). -/
  mem_wf    : s.mem.wf
  /-- The pc is in 0..256 (`10_state.md` rule R22). -/
  pc_le     : s.pc ≤ 256
  /-- FL is 0 or 1: its bits 7:1 are 0 (rule R25). -/
  fl_bit    : s.fl = 0 ∨ s.fl = 1
  /-- The parameters are legal (`00_scope.md` rule R8). -/
  params_wf : s.params.wf

/-- The operand byte `b` names the register `r` (rule R16). -/
def Names (b : Byte) (r : RegIdx) : Prop := b.toNat = r.val

/-- Every register outside `rs` holds what it held. -/
def RegsKeptExcept (rs : List RegIdx) (s t : State) : Prop := ∀ r, r ∉ rs → t.reg r = s.reg r

/-- Every byte of memory reads as before. -/
def MemKept (s t : State) : Prop := ∀ a, t.mem.read a = s.mem.read a

/-- Every byte of memory outside the one at `addr` reads as before. -/
def MemKeptExcept (addr : Nat) (s t : State) : Prop := ∀ a, a ≠ addr → t.mem.read a = s.mem.read a

/-- The status is as before, or an error has been taken. -/
def StatusKeptOrFaulted (s t : State) : Prop := t.status = s.status ∨ ∃ r, t.status = .faulted r

/-- The instruction at `pc` is `i`: the bytes from `pc` to the top of memory decode to it. -/
def InstrAt (s : State) (i : Instr) : Prop :=
  ∃ rest, decode s.params.opcodeMap s.params.aluExt (s.bytesFrom s.pc) = .ok (i, rest)

/-- The state with an error taken (rule R97): only the status differs. -/
abbrev withError (s : State) (r : FaultRecord) : State := { s with status := .faulted r }

/-- The seven cases of `60_exceptions.md` rule R94, in its order, of a step from `s`. -/
def AddressErrorCase (s : State) : Prop :=
  255 < s.pc ∨
  (∃ k, s.pc ≤ 255 ∧ s.params.opcodeMap.lookup s.params.aluExt (s.mem.read s.pc) = some k ∧
    255 < s.pc + k.operandCount) ∨
  (∃ i, InstrAt s i ∧ ¬ i.wf) ∨
  (∃ ra, (InstrAt s (.push ra) ∨ InstrAt s (.call ra)) ∧ (s.sp = 0 ∨ s.params.spInit.toNat < s.sp.toNat)) ∨
  (((∃ ra, InstrAt s (.pop ra)) ∨ InstrAt s .ret) ∧ s.params.spInit.toNat ≤ s.sp.toNat) ∨
  (∃ ra, InstrAt s (.pop ra) ∧ Names ra spIndex ∧ s.mem.read s.sp.toNat = 255) ∨
  (∃ ra, InstrAt s (.call ra) ∧ s.pc = 254)

end Sys2Proof.Machine
end

