-- ==== Sys2Proof/Certificates/Slice0/Obligations.lean ====
section
/-! DEFINITION. The statements about the machine. A docstring names the rule a statement formalises, and the
decision of `92_eei_decisions.md` (D<n>) or the log entry that a clause of it rests on. -/

open Sys2Proof Sys2Proof.Machine

/-! ## Reset and the invariant -/

/-- `10_state.md` section 7. The values of R7, FL and `out` are the spec's own decisions D5, D6 and D20. -/
def Obligations.ResetStateHoldsTheSpecValues : Prop :=
  (∀ a, State.reset.mem.read a = 0) ∧ (∀ r : RegIdx, r ≠ 7 → State.reset.reg r = 0) ∧
  State.reset.reg 7 = State.reset.params.spInit ∧ State.reset.params.spInit = 0xF4 ∧
  State.reset.pc = 0 ∧ State.reset.fl = 0 ∧ State.reset.status = .running ∧ State.reset.out = []

/-- The invariant holds at reset. -/
def Obligations.InvariantHoldsAtReset : Prop := State.reset.Inv

/-- Every step keeps the invariant: memory keeps its 256 cells in canonical form, the pc stays in 0..256
(`10_state.md` section 3), FL's bits 7:1 stay 0 (section 4), the parameters stay legal. -/
def Obligations.StepKeepsInvariant : Prop :=
  ∀ s t : State, s.Inv → step s = .next t → t.Inv

/-- The invariant holds along every run, from every state that has it. -/
def Obligations.RunKeepsInvariant : Prop :=
  ∀ (n : Nat) (s t : State), s.Inv → Host.Core.run Sys2Proof.core n s = .next t → t.Inv

/-! ## Encoding and decoding -/

/-- Every instruction decodes from its own encoding, with every operand at every value of its byte, under
every unambiguous opcode map; what follows it in memory is left over. -/
def Obligations.DecodeInvertsEncode : Prop :=
  ∀ (m : OpcodeMap) (ext : Bool) (i : Instr) (rest : List Byte), m.wf ext → i.mnemonic ∈ decodedMnemonics ext →
    decode m ext (encode m i ++ rest) = .ok (i, rest)

/-- Bytes that decode are the encoding of the instruction they decode to, and what is left over; so each word
has one meaning. No assumption on the map is needed. -/
def Obligations.EncodeInvertsDecode : Prop :=
  ∀ (m : OpcodeMap) (ext : Bool) (bytes : List Byte) (i : Instr) (rest : List Byte),
    decode m ext bytes = .ok (i, rest) → bytes = encode m i ++ rest ∧ i.mnemonic ∈ decodedMnemonics ext

/-- `30_encoding.md` sections 1 to 3 under the default map, whose byte values are D7's: words written out from
the table of rule R50 and the examples of the instruction rules. -/
def Obligations.DecodesWordsOfTheSpec : Prop :=
  decode .ls8 false [0x82, 0x00, 0x08] = .ok (.ldi 0 8, []) ∧
  decode .ls8 false [0x47, 0x03] = .ok (.prn 3, []) ∧
  decode .ls8 false [0x01] = .ok (.hlt, []) ∧
  decode .ls8 false [0xA0, 0x00, 0x01] = .ok (.add 0 1, []) ∧
  decode .ls8 false [0xA2, 0x00, 0x01] = .ok (.mul 0 1, []) ∧
  decode .ls8 false [0x45, 0x05] = .ok (.push 5, []) ∧
  decode .ls8 false [0x46, 0x02] = .ok (.pop 2, []) ∧
  decode .ls8 false [0x50, 0x01] = .ok (.call 1, []) ∧
  decode .ls8 false [0x11] = .ok (.ret, []) ∧
  decode .ls8 false [0xA7, 0x00, 0x02] = .ok (.cmp 0 2, []) ∧
  decode .ls8 false [0x54, 0x03] = .ok (.jmp 3, []) ∧
  decode .ls8 false [0x55, 0x04] = .ok (.jeq 4, []) ∧
  decode .ls8 false [0x56, 0x03] = .ok (.jne 3, []) ∧
  decode .ls8 true [0xA1, 0x00, 0x01] = .ok (.sub 0 1, []) ∧
  decode .ls8 true [0xA3, 0x00, 0x01] = .ok (.div 0 1, [])

/-- `30_encoding.md` section 4, under the default map (D7, D8, D19): 243 of the 256 byte values are illegal
without ALU_EXT, 241 with it. -/
def Obligations.UnknownOpcodeByteCounts : Prop :=
  ((List.range 256).filter fun n => OpcodeMap.ls8.lookup false (BitVec.ofNat 8 n) == none).length = 243 ∧
  ((List.range 256).filter fun n => OpcodeMap.ls8.lookup true (BitVec.ofNat 8 n) == none).length = 241

/-- `30_encoding.md` section 3: the opcode byte alone gives the length, 1 + count; a byte that is unknown has none,
and is reported whatever follows it. The last clause is `40_loop.md` section 2 and `60_exceptions.md` sections 1 and
3: the step raises UnknownOpcode even where no operand byte exists (the order is the spec's decision D10), and changes
the status alone (its decision D9; log entry 15). -/
def Obligations.LengthFromOpcodeByteAlone : Prop :=
  (∀ (m : OpcodeMap) (ext : Bool) (b : Byte) (k : Mnemonic) (bytes rest : List Byte) (i : Instr),
    m.lookup ext b = some k → decode m ext (b :: bytes) = .ok (i, rest) →
      i.mnemonic = k ∧ (b :: bytes).length = rest.length + (1 + k.operandCount)) ∧
  (∀ (m : OpcodeMap) (ext : Bool) (b : Byte) (bytes : List Byte), m.lookup ext b = none →
    decode m ext (b :: bytes) = .error (.unknownOpcode b)) ∧
  (∀ s : State, s.status = .running → s.pc ≤ 255 →
    s.params.opcodeMap.lookup s.params.aluExt (s.mem.read s.pc) = none →
      step s = .next (withError s (.unknownOpcode s.pc (s.mem.read s.pc))))

/-! ## The loop -/

/-- A step runs the decoded instruction: where the block is Running and the bytes at the pc decode to `i`, the
step is exactly `exec i`; nothing is added around it, since each meaning holds its own advance. -/
def Obligations.StepRunsTheDecodedInstruction : Prop :=
  ∀ (s : State) (i : Instr), s.status = .running → InstrAt s i → step s = exec i s

/-- `40_loop.md` section 2, fetch and operand fetch (D2, D3): an opcode fetch above 255 raises with address `pc`
and no opcode; a first operand byte above 255 raises with its address; so does a second one. -/
def Obligations.FetchAboveMemoryRaises : Prop :=
  ∀ s : State, s.status = .running →
    (255 < s.pc → step s = .next (withError s (.addressOutOfRange .memory s.pc s.pc none))) ∧
    (∀ k, s.pc ≤ 255 → s.params.opcodeMap.lookup s.params.aluExt (s.mem.read s.pc) = some k →
      (1 ≤ k.operandCount → 255 < s.pc + 1 →
        step s = .next (withError s (.addressOutOfRange .memory (s.pc + 1) s.pc (some (s.mem.read s.pc))))) ∧
      (k.operandCount = 2 → s.pc + 1 ≤ 255 → 255 < s.pc + 2 →
        step s = .next (withError s (.addressOutOfRange .memory (s.pc + 2) s.pc (some (s.mem.read s.pc))))))

/-- Rule R65: a Halted or Faulted block has no step, so a step never changes such a status and never clears a fault
record. -/
def Obligations.StoppedBlockHasNoStep : Prop :=
  (∀ s t : State, s.status = .halted → step s ≠ .next t) ∧
  (∀ (s t : State) (r : FaultRecord), s.status = .faulted r → step s ≠ .next t) ∧
  (∀ s t : State, step s = .next t → s.status = .running)

/-- Rule R68: each Running state has exactly one next state. -/
def Obligations.RunningStateHasExactlyOneNextState : Prop :=
  ∀ s : State, s.status = .running → ∃! t : State, step s = .next t

/-- `40_loop.md` section 2, step 4: an instruction that neither set `pc` nor raised advances by 1 + its operand
count, without wrapping; JEQ and JNE not taken advance by 2. HLT's advance is D17's reading. -/
def Obligations.AdvanceByLength : Prop :=
  ∀ (i : Instr) (s t : State), s.status = .running → exec i s = .next t → (∀ r, t.status ≠ .faulted r) →
    ((∀ ra, i ≠ .call ra ∧ i ≠ .jmp ra ∧ i ≠ .jeq ra ∧ i ≠ .jne ra) → i ≠ .ret → t.pc = s.pc + i.length) ∧
    ((∃ ra, i = .jeq ra) → s.fl ≠ 1 → t.pc = s.pc + 2) ∧
    ((∃ ra, i = .jne ra) → s.fl ≠ 0 → t.pc = s.pc + 2)

/-! ## Errors -/

/-- `60_exceptions.md` section 3 (D9): errors are precise. A step that ends Faulted changed the status and
nothing else. -/
def Obligations.ErrorChangesOnlyStatus : Prop :=
  ∀ (s t : State) (r : FaultRecord), step s = .next t → t.status = .faulted r → t = withError s r

/-- `60_exceptions.md` section 1 (D4, D24): a step raises AddressOutOfRange in exactly the seven cases. -/
def Obligations.AddressErrorExactlyInTheSevenCases : Prop :=
  ∀ s t : State, step s = .next t →
    ((∃ space loc pc opcode, t.status = .faulted (.addressOutOfRange space loc pc opcode)) ↔ AddressErrorCase s)

/-- `60_exceptions.md` section 1: UnknownOpcode is raised exactly for an opcode byte in no row of the map,
DivisionByZero exactly by DIV with divisor 0, and no step raises UnsupportedAluOperation (D29) or
MalformedProgramLine. Each record names the instruction's address and its opcode byte. -/
def Obligations.OtherErrorsExactlyWhereNamed : Prop :=
  ∀ s t : State, step s = .next t →
    (∀ pc b, t.status = .faulted (.unknownOpcode pc b) ↔
      pc = s.pc ∧ b = s.mem.read s.pc ∧ s.pc ≤ 255 ∧ s.params.opcodeMap.lookup s.params.aluExt b = none) ∧
    (∀ pc b, t.status = .faulted (.divisionByZero pc b) ↔
      pc = s.pc ∧ b = s.mem.read s.pc ∧
        ∃ ra rb q d, InstrAt s (.div ra rb) ∧ Names ra q ∧ Names rb d ∧ s.reg d = 0) ∧
    (∀ pc b, t.status ≠ .faulted (.unsupportedAluOperation pc b)) ∧
    (∀ n, t.status ≠ .faulted (.malformedProgramLine n))

/-- `10_state.md` section 5: Halted is entered by HLT alone. -/
def Obligations.OnlyHltHalts : Prop :=
  ∀ s t : State, step s = .next t → (t.status = .halted ↔ InstrAt s .hlt)

/-- `60_exceptions.md` section 6: no exit status while the block runs, 0 when it ends Halted, and a non-zero one
when it ends Faulted, distinct for distinct kinds (the numbers are D11's and are not stated). -/
def Obligations.ExitStatusTellsHowTheRunEnded : Prop :=
  (∀ s : State, s.exitStatus = none ↔ s.status = .running) ∧
  (∀ s : State, s.exitStatus = some 0 ↔ s.status = .halted) ∧
  (∀ (s : State) (r : FaultRecord), s.status = .faulted r → ∃ n, n ≠ 0 ∧ s.exitStatus = some n) ∧
  (∀ k l : ErrorKind, k.exitCode = l.exitCode → k = l)

/-! ## Whole-machine rules -/

/-- Rule R26: only CMP writes FL; only JEQ and JNE read it (two runs of another instruction that differ in FL alone
agree in everything but FL, and two runs of a CMP that writes FL agree in FL too); no instruction moves FL into a
register or memory. -/
def Obligations.OnlyCmpWritesAndOnlyJeqJneReadFlags : Prop :=
  (∀ s t : State, step s = .next t → t.fl ≠ s.fl → ∃ ra rb, InstrAt s (.cmp ra rb)) ∧
  (∀ (i : Instr) (s t : State), exec i s = .next t → (∀ ra rb, i ≠ .cmp ra rb) → t.fl = s.fl) ∧
  (∀ (i : Instr) (s t u : State) (f : Byte), (∀ ra, i ≠ .jeq ra ∧ i ≠ .jne ra) →
    exec i s = .next t → exec i { s with fl := f } = .next u → { u with fl := t.fl } = t) ∧
  (∀ (ra rb : Byte) (a b : RegIdx) (s t u : State) (f : Byte), Names ra a → Names rb b →
    exec (.cmp ra rb) s = .next t → exec (.cmp ra rb) { s with fl := f } = .next u → u = t) ∧
  (∀ (i : Instr) (s t u : State) (f : Byte), exec i s = .next t → exec i { s with fl := f } = .next u →
    u.x = t.x ∧ u.mem = t.mem ∧ u.out = t.out)

/-- `20_memory.md` sections 1 and 3 (the bounds are D4's): a byte of memory changes only when PUSH or CALL stores
to it, at SP - 1, and that address is in the stack region 0 .. SP_INIT - 1. -/
def Obligations.OnlyPushAndCallStoreInTheStackRegion : Prop :=
  ∀ (s t : State) (a : Nat), s.Inv → step s = .next t → t.mem.read a ≠ s.mem.read a →
    (∃ ra, InstrAt s (.push ra) ∨ InstrAt s (.call ra)) ∧ a + 1 = s.sp.toNat ∧ a < s.params.spInit.toNat

/-- `20_memory.md` section 1: an instruction reads data from memory only in POP and RET, and only at SP. Take two
executions from states that differ in memory alone; for POP and RET, let the two memories agree at SP. They agree in
everything but memory. What they store does not come from memory either: each byte is left alone by both, or is the
same after both. And what PUSH and CALL store (within the stack's bounds, which are D4's) is the same after both. -/
def Obligations.OnlyPopAndRetReadMemoryAtSp : Prop :=
  (∀ (i : Instr) (s t u : State) (m : Memory),
    ((∃ ra, i = .pop ra) ∨ i = .ret → m.read s.sp.toNat = s.mem.read s.sp.toNat) →
      exec i s = .next t → exec i { s with mem := m } = .next u → { u with mem := t.mem } = t) ∧
  (∀ (i : Instr) (s t u : State) (m : Memory), s.mem.wf → m.wf →
    exec i s = .next t → exec i { s with mem := m } = .next u →
      ∀ a, (t.mem.read a = s.mem.read a ∧ u.mem.read a = m.read a) ∨ u.mem.read a = t.mem.read a) ∧
  (∀ (i : Instr) (ra : Byte) (s t u : State) (m : Memory), i = .push ra ∨ (i = .call ra ∧ s.pc + 2 ≤ 255) →
    ra.toNat ≤ 7 → s.pushOk = true → s.mem.wf → m.wf →
      exec i s = .next t → exec i { s with mem := m } = .next u →
        u.mem.read s.pushAddr.toNat = t.mem.read s.pushAddr.toNat)

/-- `10_state.md` section 5: `out` grows by one value at each PRN that raises nothing, the value of its register,
at the end; no other step changes it, and the block never reads it. -/
def Obligations.OutputGrowsOnlyByPrnAndIsNeverRead : Prop :=
  (∀ s t : State, step s = .next t → t.out ≠ s.out →
    ∃ ra r, InstrAt s (.prn ra) ∧ Names ra r ∧ t.out = s.out ++ [s.reg r]) ∧
  (∀ s t : State, step s = .next t → ∃ new, t.out = s.out ++ new ∧
    ∀ o, step { s with out := o } = .next { t with out := o ++ new })

/-- `40_loop.md` section 4: the trace hook has no effect on machine state. Switching it changes no step. -/
def Obligations.TraceHookChangesNoStep : Prop :=
  ∀ (s t : State) (on : Bool), step s = .next t →
    step { s with params := { s.params with traceEnabled := on } }
      = .next { t with params := { t.params with traceEnabled := on } }

/-- The parameters are fixed: no step changes them (log entry 1: the model keeps them in State). -/
def Obligations.StepKeepsParameters : Prop :=
  ∀ s t : State, step s = .next t → t.params = s.params

/-- `20_memory.md` section 5 (D12): a store is seen by the next fetch. After a PUSH that raises nothing, a block
whose pc stands at the stored address fetches the stored byte: unknown opcodes show it in the record. -/
def Obligations.StoreIsSeenByTheNextFetch : Prop :=
  ∀ (s t : State) (ra : Byte) (r : RegIdx), s.Inv → s.status = .running → Names ra r → r ≠ 7 → s.pushOk = true →
    exec (.push ra) s = .next t → t.pc + 1 = s.sp.toNat →
      s.params.opcodeMap.lookup s.params.aluExt (s.reg r) = none →
        step t = .next (withError t (.unknownOpcode t.pc (s.reg r)))

/-! ## Instructions: LDI, PRN, HLT

In every statement about one instruction, here and below, the byte of its encoding is D7's (log entry 2), the error
for a register index above 7 is D2's and D18's, the order of checks D9's and D10's, and the 8 bits of a register, so
also the modulus 256, are D1's: the spec's own decisions (log entry 15). -/

/-- `41_register_and_system.md`, LDI. -/
def Obligations.LdiLoadsTheImmediate : Prop :=
  ∀ (s : State) (ra imm : Byte),
    ((∀ m, encode m (.ldi ra imm) = [m.ldi, ra, imm]) ∧ OpcodeMap.ls8.ldi = 0x82) ∧
    (7 < ra.toNat → exec (.ldi ra imm) s
      = .next (withError s (.addressOutOfRange .register ra.toNat s.pc (some s.params.opcodeMap.ldi)))) ∧
    (∀ r, Names ra r → ∃ t, exec (.ldi ra imm) s = .next t ∧ t.reg r = imm ∧ t.pc = s.pc + 3 ∧
      RegsKeptExcept [r] s t ∧ MemKept s t ∧ t.fl = s.fl ∧ t.status = s.status ∧ t.out = s.out ∧
      t.params = s.params)

/-- `41_register_and_system.md`, PRN (the text form, D20 and D25, is in PrintedTextIsTheDecimalNumber). -/
def Obligations.PrnAppendsTheRegister : Prop :=
  ∀ (s : State) (ra : Byte),
    ((∀ m, encode m (.prn ra) = [m.prn, ra]) ∧ OpcodeMap.ls8.prn = 0x47) ∧
    (7 < ra.toNat → exec (.prn ra) s
      = .next (withError s (.addressOutOfRange .register ra.toNat s.pc (some s.params.opcodeMap.prn)))) ∧
    (∀ r, Names ra r → ∃ t, exec (.prn ra) s = .next t ∧ t.out = s.out ++ [s.reg r] ∧ t.pc = s.pc + 2 ∧
      RegsKeptExcept [] s t ∧ MemKept s t ∧ t.fl = s.fl ∧ t.status = s.status ∧ t.params = s.params)

/-- `41_register_and_system.md`, HLT. The pc after HLT is left open, as D17 and I18 ask of a claim; the exit
status 0 is D11's. -/
def Obligations.HltHaltsWithExitStatusZero : Prop :=
  ∀ s : State, ((∀ m, encode m .hlt = [m.hlt]) ∧ OpcodeMap.ls8.hlt = 0x01) ∧
    ∃ t, exec .hlt s = .next t ∧ t.status = .halted ∧ t.exitStatus = some 0 ∧ RegsKeptExcept [] s t ∧
      MemKept s t ∧ t.fl = s.fl ∧ t.out = s.out ∧ t.params = s.params

/-- `41_register_and_system.md`, PRN's text form (D20, D25; 93 I12): each value is written as its unsigned decimal
digits with no leading zero, then one line end, whose character is a free value (log entry 10). -/
def Obligations.PrintedTextIsTheDecimalNumber : Prop :=
  ∀ v : Byte, outputText [v] = decimalDigits v ++ [Config.lineEnd] ∧
    (∀ out, outputText (out ++ [v]) = outputText out ++ outputText [v]) ∧
    (decimalDigits v).foldl (fun n c => 10 * n + (c.toNat - 48)) 0 = v.toNat ∧
    (∀ c ∈ decimalDigits v, 48 ≤ c.toNat ∧ c.toNat ≤ 57) ∧
    ((decimalDigits v).length = 1 ∨ (decimalDigits v).head? ≠ some '0')

/-! ## Instructions: the ALU -/

/-- `42_alu.md` section 2, ADD. -/
def Obligations.AddAddsModulo256 : Prop :=
  ∀ (s : State) (ra rb : Byte),
    ((∀ m, encode m (.add ra rb) = [m.add, ra, rb]) ∧ OpcodeMap.ls8.add = 0xA0) ∧
    (7 < ra.toNat → exec (.add ra rb) s
      = .next (withError s (.addressOutOfRange .register ra.toNat s.pc (some s.params.opcodeMap.add)))) ∧
    (ra.toNat ≤ 7 → 7 < rb.toNat → exec (.add ra rb) s
      = .next (withError s (.addressOutOfRange .register rb.toNat s.pc (some s.params.opcodeMap.add)))) ∧
    (∀ a b, Names ra a → Names rb b → ∃ t, exec (.add ra rb) s = .next t ∧
      (t.reg a).toNat = ((s.reg a).toNat + (s.reg b).toNat) % 256 ∧ t.pc = s.pc + 3 ∧
      RegsKeptExcept [a] s t ∧ MemKept s t ∧ t.fl = s.fl ∧ t.status = s.status ∧ t.out = s.out ∧
      t.params = s.params)

/-- `42_alu.md` section 2, MUL. -/
def Obligations.MulMultipliesModulo256 : Prop :=
  ∀ (s : State) (ra rb : Byte),
    ((∀ m, encode m (.mul ra rb) = [m.mul, ra, rb]) ∧ OpcodeMap.ls8.mul = 0xA2) ∧
    (7 < ra.toNat → exec (.mul ra rb) s
      = .next (withError s (.addressOutOfRange .register ra.toNat s.pc (some s.params.opcodeMap.mul)))) ∧
    (ra.toNat ≤ 7 → 7 < rb.toNat → exec (.mul ra rb) s
      = .next (withError s (.addressOutOfRange .register rb.toNat s.pc (some s.params.opcodeMap.mul)))) ∧
    (∀ a b, Names ra a → Names rb b → ∃ t, exec (.mul ra rb) s = .next t ∧
      (t.reg a).toNat = (s.reg a).toNat * (s.reg b).toNat % 256 ∧ t.pc = s.pc + 3 ∧
      RegsKeptExcept [a] s t ∧ MemKept s t ∧ t.fl = s.fl ∧ t.status = s.status ∧ t.out = s.out ∧
      t.params = s.params)

/-- `42_alu.md` section 3, SUB (decoded only with ALU_EXT, D8): the difference modulo 256; without ALU_EXT its byte
is an unknown opcode. -/
def Obligations.SubSubtractsModulo256 : Prop :=
  ∀ (s : State) (ra rb : Byte),
    ((∀ m, encode m (.sub ra rb) = [m.sub, ra, rb]) ∧ OpcodeMap.ls8.sub = 0xA1) ∧
    (7 < ra.toNat → exec (.sub ra rb) s
      = .next (withError s (.addressOutOfRange .register ra.toNat s.pc (some s.params.opcodeMap.sub)))) ∧
    (ra.toNat ≤ 7 → 7 < rb.toNat → exec (.sub ra rb) s
      = .next (withError s (.addressOutOfRange .register rb.toNat s.pc (some s.params.opcodeMap.sub)))) ∧
    (∀ a b, Names ra a → Names rb b → ∃ t, exec (.sub ra rb) s = .next t ∧
      (t.reg a).toNat = (256 + (s.reg a).toNat - (s.reg b).toNat) % 256 ∧ t.pc = s.pc + 3 ∧
      RegsKeptExcept [a] s t ∧ MemKept s t ∧ t.fl = s.fl ∧ t.status = s.status ∧ t.out = s.out ∧
      t.params = s.params) ∧
    (s.status = .running → s.pc ≤ 255 → s.mem.read s.pc = 0xA1 → s.params.opcodeMap = .ls8 →
      s.params.aluExt = false → step s = .next (withError s (.unknownOpcode s.pc 0xA1)))

/-- `42_alu.md` section 3, DIV (decoded only with ALU_EXT, D8; floor division, D28): the quotient, or
DivisionByZero; without ALU_EXT its byte is an unknown opcode. -/
def Obligations.DivDividesOrRaisesDivisionByZero : Prop :=
  ∀ (s : State) (ra rb : Byte),
    ((∀ m, encode m (.div ra rb) = [m.div, ra, rb]) ∧ OpcodeMap.ls8.div = 0xA3) ∧
    (7 < ra.toNat → exec (.div ra rb) s
      = .next (withError s (.addressOutOfRange .register ra.toNat s.pc (some s.params.opcodeMap.div)))) ∧
    (ra.toNat ≤ 7 → 7 < rb.toNat → exec (.div ra rb) s
      = .next (withError s (.addressOutOfRange .register rb.toNat s.pc (some s.params.opcodeMap.div)))) ∧
    (∀ a b, Names ra a → Names rb b → s.reg b = 0 → exec (.div ra rb) s
      = .next (withError s (.divisionByZero s.pc s.params.opcodeMap.div))) ∧
    (∀ a b, Names ra a → Names rb b → s.reg b ≠ 0 → ∃ t, exec (.div ra rb) s = .next t ∧
      (t.reg a).toNat = (s.reg a).toNat / (s.reg b).toNat ∧ t.pc = s.pc + 3 ∧
      RegsKeptExcept [a] s t ∧ MemKept s t ∧ t.fl = s.fl ∧ t.status = s.status ∧ t.out = s.out ∧
      t.params = s.params) ∧
    (s.status = .running → s.pc ≤ 255 → s.mem.read s.pc = 0xA3 → s.params.opcodeMap = .ls8 →
      s.params.aluExt = false → step s = .next (withError s (.unknownOpcode s.pc 0xA3)))

/-- `42_alu.md` section 1 (D29): asked for an operation outside ADD, SUB, MUL, DIV, the ALU raises
UnsupportedAluOperation and writes nothing. -/
def Obligations.AluRefusesOtherOperations : Prop :=
  ∀ (s : State) (op : Mnemonic) (ra rb : Byte) (a b : RegIdx), Names ra a → Names rb b →
    op ≠ .add → op ≠ .sub → op ≠ .mul → op ≠ .div →
      s.alu op ra rb = .next (withError s (.unsupportedAluOperation s.pc (s.params.opcodeMap.byteOf op)))

/-! ## Instructions: the stack -/

/-- `43_stack_and_call.md`, PUSH (the bounds are D4's; what PUSH R7 stores, the decremented SP, is D13's). -/
def Obligations.PushStoresBelowSp : Prop :=
  ∀ (s : State) (ra : Byte),
    ((∀ m, encode m (.push ra) = [m.push, ra]) ∧ OpcodeMap.ls8.push = 0x45) ∧
    (7 < ra.toNat → exec (.push ra) s
      = .next (withError s (.addressOutOfRange .register ra.toNat s.pc (some s.params.opcodeMap.push)))) ∧
    (ra.toNat ≤ 7 → (s.sp.toNat = 0 ∨ s.params.spInit.toNat < s.sp.toNat) → exec (.push ra) s
      = .next (withError s
          (.addressOutOfRange .stack ((s.sp.toNat : Int) - 1) s.pc (some s.params.opcodeMap.push)))) ∧
    (∀ r, Names ra r → s.mem.wf → 1 ≤ s.sp.toNat → s.sp.toNat ≤ s.params.spInit.toNat →
      ∃ t, exec (.push ra) s = .next t ∧ t.sp.toNat = s.sp.toNat - 1 ∧
        t.mem.read (s.sp.toNat - 1) = t.reg r ∧ t.pc = s.pc + 2 ∧ RegsKeptExcept [7] s t ∧
        MemKeptExcept (s.sp.toNat - 1) s t ∧ t.fl = s.fl ∧ t.status = s.status ∧ t.out = s.out ∧
        t.params = s.params)

/-- `43_stack_and_call.md`, POP (the bounds are D4's; what POP R7 leaves, the byte + 1, is D13's). -/
def Obligations.PopLoadsFromSp : Prop :=
  ∀ (s : State) (ra : Byte),
    ((∀ m, encode m (.pop ra) = [m.pop, ra]) ∧ OpcodeMap.ls8.pop = 0x46) ∧
    (7 < ra.toNat → exec (.pop ra) s
      = .next (withError s (.addressOutOfRange .register ra.toNat s.pc (some s.params.opcodeMap.pop)))) ∧
    (ra.toNat ≤ 7 → s.params.spInit.toNat ≤ s.sp.toNat → exec (.pop ra) s
      = .next (withError s (.addressOutOfRange .stack s.sp.toNat s.pc (some s.params.opcodeMap.pop)))) ∧
    (Names ra 7 → s.sp.toNat < s.params.spInit.toNat → s.mem.read s.sp.toNat = 255 → exec (.pop ra) s
      = .next (withError s (.addressOutOfRange .stack 256 s.pc (some s.params.opcodeMap.pop)))) ∧
    (∀ r, Names ra r → r ≠ 7 → s.sp.toNat < s.params.spInit.toNat →
      ∃ t, exec (.pop ra) s = .next t ∧ t.reg r = s.mem.read s.sp.toNat ∧ t.sp.toNat = s.sp.toNat + 1 ∧
        t.pc = s.pc + 2 ∧ RegsKeptExcept [r, 7] s t ∧ MemKept s t ∧ t.fl = s.fl ∧ t.status = s.status ∧
        t.out = s.out ∧ t.params = s.params) ∧
    (Names ra 7 → s.sp.toNat < s.params.spInit.toNat → s.mem.read s.sp.toNat ≠ 255 →
      ∃ t, exec (.pop ra) s = .next t ∧ t.sp.toNat = (s.mem.read s.sp.toNat).toNat + 1 ∧ t.pc = s.pc + 2 ∧
        RegsKeptExcept [7] s t ∧ MemKept s t ∧ t.fl = s.fl ∧ t.status = s.status ∧ t.out = s.out ∧
        t.params = s.params)

/-- `43_stack_and_call.md`, CALL (D4; D24 for the return address 256; D13 for CALL R7, which jumps to the
decremented SP). -/
def Obligations.CallStoresReturnAddressAndJumps : Prop :=
  ∀ (s : State) (ra : Byte),
    ((∀ m, encode m (.call ra) = [m.call, ra]) ∧ OpcodeMap.ls8.call = 0x50) ∧
    (7 < ra.toNat → exec (.call ra) s
      = .next (withError s (.addressOutOfRange .register ra.toNat s.pc (some s.params.opcodeMap.call)))) ∧
    (ra.toNat ≤ 7 → (s.sp.toNat = 0 ∨ s.params.spInit.toNat < s.sp.toNat) → exec (.call ra) s
      = .next (withError s
          (.addressOutOfRange .stack ((s.sp.toNat : Int) - 1) s.pc (some s.params.opcodeMap.call)))) ∧
    (ra.toNat ≤ 7 → 1 ≤ s.sp.toNat → s.sp.toNat ≤ s.params.spInit.toNat → 255 < s.pc + 2 →
      exec (.call ra) s
        = .next (withError s (.addressOutOfRange .memory (s.pc + 2) s.pc (some s.params.opcodeMap.call)))) ∧
    (∀ r, Names ra r → s.mem.wf → 1 ≤ s.sp.toNat → s.sp.toNat ≤ s.params.spInit.toNat → s.pc + 2 ≤ 255 →
      ∃ t, exec (.call ra) s = .next t ∧ t.sp.toNat = s.sp.toNat - 1 ∧
        (t.mem.read (s.sp.toNat - 1)).toNat = s.pc + 2 ∧ t.pc = (t.reg r).toNat ∧ RegsKeptExcept [7] s t ∧
        MemKeptExcept (s.sp.toNat - 1) s t ∧ t.fl = s.fl ∧ t.status = s.status ∧ t.out = s.out ∧
        t.params = s.params)

/-- `43_stack_and_call.md`, RET (the bound is D4's). The last clause is the rule's corner case: PUSH Ra followed by
RET jumps to `x[a]`. -/
def Obligations.RetJumpsToThePoppedByte : Prop :=
  ∀ s : State,
    ((∀ m, encode m .ret = [m.ret]) ∧ OpcodeMap.ls8.ret = 0x11) ∧
    (s.params.spInit.toNat ≤ s.sp.toNat → exec .ret s
      = .next (withError s (.addressOutOfRange .stack s.sp.toNat s.pc (some s.params.opcodeMap.ret)))) ∧
    (s.sp.toNat < s.params.spInit.toNat →
      ∃ t, exec .ret s = .next t ∧ t.pc = (s.mem.read s.sp.toNat).toNat ∧ t.sp.toNat = s.sp.toNat + 1 ∧
        RegsKeptExcept [7] s t ∧ MemKept s t ∧ t.fl = s.fl ∧ t.status = s.status ∧ t.out = s.out ∧
        t.params = s.params) ∧
    (∀ ra r, Names ra r → r ≠ 7 → s.mem.wf → 1 ≤ s.sp.toNat → s.sp.toNat ≤ s.params.spInit.toNat →
      ∃ t u, exec (.push ra) s = .next t ∧ exec .ret t = .next u ∧ u.pc = (s.reg r).toNat)

/-- `43_stack_and_call.md` (the source's round-trip law, W2): PUSH then POP on the same register, R7 included (by
D13), restores every register, and so SP. -/
def Obligations.PushThenPopRestoresTheRegisters : Prop :=
  ∀ (s : State) (ra : Byte), ra.toNat ≤ 7 → s.mem.wf → 1 ≤ s.sp.toNat → s.sp.toNat ≤ s.params.spInit.toNat →
    ∃ t u, exec (.push ra) s = .next t ∧ exec (.pop ra) t = .next u ∧ u.x = s.x ∧ u.pc = s.pc + 4 ∧
      MemKeptExcept (s.sp.toNat - 1) s u

/-- `43_stack_and_call.md` (the source's call law, W4): in whatever state the subroutine reaches RET, if it left SP
and the return address as CALL made them, RET resumes at the instruction after the CALL, with SP restored. -/
def Obligations.CallThenRetResumesAfterTheCall : Prop :=
  ∀ (s t v : State) (ra : Byte), ra.toNat ≤ 7 → s.mem.wf → s.status = .running → 1 ≤ s.sp.toNat →
    s.sp.toNat ≤ s.params.spInit.toNat → s.pc + 2 ≤ 255 → exec (.call ra) s = .next t →
      v.sp = t.sp → v.mem.read t.sp.toNat = t.mem.read t.sp.toNat → v.params = t.params →
        ∃ u, exec .ret v = .next u ∧ u.pc = s.pc + 2 ∧ u.sp = s.sp

/-! ## Instructions: compare and jump -/

/-- `44_compare_and_jump.md` section 2, CMP. -/
def Obligations.CmpSetsTheEqualityFlag : Prop :=
  ∀ (s : State) (ra rb : Byte),
    ((∀ m, encode m (.cmp ra rb) = [m.cmp, ra, rb]) ∧ OpcodeMap.ls8.cmp = 0xA7) ∧
    (7 < ra.toNat → exec (.cmp ra rb) s
      = .next (withError s (.addressOutOfRange .register ra.toNat s.pc (some s.params.opcodeMap.cmp)))) ∧
    (ra.toNat ≤ 7 → 7 < rb.toNat → exec (.cmp ra rb) s
      = .next (withError s (.addressOutOfRange .register rb.toNat s.pc (some s.params.opcodeMap.cmp)))) ∧
    (∀ a b, Names ra a → Names rb b → ∃ t, exec (.cmp ra rb) s = .next t ∧
      (s.reg a = s.reg b → t.fl = 1) ∧ (s.reg a ≠ s.reg b → t.fl = 0) ∧ t.pc = s.pc + 3 ∧
      RegsKeptExcept [] s t ∧ MemKept s t ∧ t.status = s.status ∧ t.out = s.out ∧ t.params = s.params) ∧
    (∀ (i : Instr) (t : State), exec i s = .next t → t.fl ≠ s.fl → ∃ qa qb, i = .cmp qa qb)

/-- `44_compare_and_jump.md` section 2, JMP. -/
def Obligations.JmpJumpsToTheRegister : Prop :=
  ∀ (s : State) (ra : Byte),
    ((∀ m, encode m (.jmp ra) = [m.jmp, ra]) ∧ OpcodeMap.ls8.jmp = 0x54) ∧
    (7 < ra.toNat → exec (.jmp ra) s
      = .next (withError s (.addressOutOfRange .register ra.toNat s.pc (some s.params.opcodeMap.jmp)))) ∧
    (∀ r, Names ra r → ∃ t, exec (.jmp ra) s = .next t ∧ t.pc = (s.reg r).toNat ∧
      RegsKeptExcept [] s t ∧ MemKept s t ∧ t.fl = s.fl ∧ t.status = s.status ∧ t.out = s.out ∧
      t.params = s.params) ∧
    (∀ r, Names ra r → (s.reg r).toNat = s.pc → exec (.jmp ra) s = .next s)

/-- `44_compare_and_jump.md` section 2, JEQ. The index is checked whether or not the jump is taken. -/
def Obligations.JeqJumpsWhenFlagIsOne : Prop :=
  ∀ (s : State) (ra : Byte),
    ((∀ m, encode m (.jeq ra) = [m.jeq, ra]) ∧ OpcodeMap.ls8.jeq = 0x55) ∧
    (7 < ra.toNat → exec (.jeq ra) s
      = .next (withError s (.addressOutOfRange .register ra.toNat s.pc (some s.params.opcodeMap.jeq)))) ∧
    (∀ r, Names ra r → ∃ t, exec (.jeq ra) s = .next t ∧ (s.fl = 1 → t.pc = (s.reg r).toNat) ∧
      (s.fl ≠ 1 → t.pc = s.pc + 2) ∧ RegsKeptExcept [] s t ∧ MemKept s t ∧ t.fl = s.fl ∧
      t.status = s.status ∧ t.out = s.out ∧ t.params = s.params) ∧
    (∀ r t, Names ra r → s.status = .running → s.pc = 254 → s.fl ≠ 1 → exec (.jeq ra) s = .next t →
      step t = .next (withError t (.addressOutOfRange .memory 256 256 none)))

/-- `44_compare_and_jump.md` section 2, JNE. The last clause: JEQ and JNE with the same register and FL take opposite
paths. -/
def Obligations.JneJumpsWhenFlagIsZero : Prop :=
  ∀ (s : State) (ra : Byte),
    ((∀ m, encode m (.jne ra) = [m.jne, ra]) ∧ OpcodeMap.ls8.jne = 0x56) ∧
    (7 < ra.toNat → exec (.jne ra) s
      = .next (withError s (.addressOutOfRange .register ra.toNat s.pc (some s.params.opcodeMap.jne)))) ∧
    (∀ r, Names ra r → ∃ t, exec (.jne ra) s = .next t ∧ (s.fl = 0 → t.pc = (s.reg r).toNat) ∧
      (s.fl ≠ 0 → t.pc = s.pc + 2) ∧ RegsKeptExcept [] s t ∧ MemKept s t ∧ t.fl = s.fl ∧
      t.status = s.status ∧ t.out = s.out ∧ t.params = s.params) ∧
    (∀ r t u, Names ra r → s.fl = 0 ∨ s.fl = 1 → exec (.jeq ra) s = .next t → exec (.jne ra) s = .next u →
      (t.pc = (s.reg r).toNat ∧ u.pc = s.pc + 2) ∨ (t.pc = s.pc + 2 ∧ u.pc = (s.reg r).toNat))

/-! ## Frames: whatever next state an instruction answers, an error taken included -/

/-- LDI, ADD, MUL, SUB, DIV change no register but the one `ra` names, no flag, no byte of memory, no output; the
status only by taking an error. -/
def Obligations.FrameOfRegisterWriters : Prop :=
  ∀ (i : Instr) (ra rb : Byte) (s t : State),
    i = .ldi ra rb ∨ i = .add ra rb ∨ i = .mul ra rb ∨ i = .sub ra rb ∨ i = .div ra rb → exec i s = .next t →
      (∀ r, ¬ Names ra r → t.reg r = s.reg r) ∧ MemKept s t ∧ t.fl = s.fl ∧ t.out = s.out ∧
      StatusKeptOrFaulted s t ∧ t.params = s.params

/-- PUSH and CALL change no register but SP, and no byte of memory but the one at the address the meaning
computes, `State.pushAddr`; none at all where the stack's bounds fail. -/
def Obligations.FrameOfStores : Prop :=
  ∀ (i : Instr) (ra : Byte) (s t : State), i = .push ra ∨ i = .call ra → s.mem.wf → exec i s = .next t →
    RegsKeptExcept [7] s t ∧ MemKeptExcept s.pushAddr.toNat s t ∧ (s.pushOk = false → MemKept s t) ∧
    t.fl = s.fl ∧ t.out = s.out ∧ StatusKeptOrFaulted s t ∧ t.params = s.params

/-- POP changes no register but SP and the one `ra` names, RET none but SP; neither changes a flag, memory or
output. -/
def Obligations.FrameOfStackReads : Prop :=
  (∀ (ra : Byte) (s t : State), exec (.pop ra) s = .next t →
    (∀ r, ¬ Names ra r → r ≠ 7 → t.reg r = s.reg r) ∧ MemKept s t ∧ t.fl = s.fl ∧ t.out = s.out ∧
    StatusKeptOrFaulted s t ∧ t.params = s.params) ∧
  (∀ s t : State, exec .ret s = .next t →
    RegsKeptExcept [7] s t ∧ MemKept s t ∧ t.fl = s.fl ∧ t.out = s.out ∧ StatusKeptOrFaulted s t ∧
    t.params = s.params)

/-- PRN, HLT, CMP, JMP, JEQ, JNE change no register and no byte of memory; FL only CMP, `out` only PRN; the status
only HLT, or by taking an error. -/
def Obligations.FrameOfTheOthers : Prop :=
  ∀ (i : Instr) (ra rb : Byte) (s t : State),
    i = .prn ra ∨ i = .hlt ∨ i = .cmp ra rb ∨ i = .jmp ra ∨ i = .jeq ra ∨ i = .jne ra → exec i s = .next t →
      RegsKeptExcept [] s t ∧ MemKept s t ∧ (i ≠ .cmp ra rb → t.fl = s.fl) ∧ (i ≠ .prn ra → t.out = s.out) ∧
      (i ≠ .hlt → StatusKeptOrFaulted s t) ∧ t.params = s.params

/-! ## Memory and the loader -/

/-- `20_memory.md` section 1: a read returns the cell and changes nothing; a write sets its cell and changes no other
cell and nothing else. That memory has a canonical form, `wf`, which the statement assumes and the write keeps, is the
model's choice (log entry 16). -/
def Obligations.MemoryWriteChangesExactlyOneCell : Prop :=
  ∀ (s : State) (a : Nat) (v : Byte), s.mem.wf → a ≤ 255 →
    s.memRead a = some (s.mem.read a) ∧
    ∃ t, s.memWrite a v = some t ∧ t.memRead a = some v ∧ (∀ b, b ≠ a → t.memRead b = s.memRead b) ∧
      t.mem.wf ∧ t = { s with mem := t.mem }

/-- `20_memory.md` section 1 (D2): an access outside 0..255 raises, and only such an access; nothing wraps. -/
def Obligations.AccessOutsideMemoryRaises : Prop :=
  ∀ (s : State) (a : Nat) (v : Byte),
    (s.memRead a = none ↔ 255 < a) ∧ (s.memWrite a v = none ↔ 255 < a)

/-- The canonical form is one: two memories in it that read alike at the 256 addresses are equal data. -/
def Obligations.MemoriesThatReadAlikeAreEqual : Prop :=
  ∀ m n : Memory, m.wf → n.wf → (∀ a, a ≤ 255 → m.read a = n.read a) → m = n

/-- `70_reset_and_hazards.md` section 1 (D22): loading writes `b[i]` to cell `i`, leaves the cells above the image as
they were (0 at reset), changes nothing else, keeps the invariant, and refuses more than 256 bytes. -/
def Obligations.LoadWritesTheImageFromAddressZero : Prop :=
  ∀ (s : State) (bytes : List Byte), s.Inv →
    (bytes.length ≤ 256 → ∃ t, s.loadBytes bytes = some t ∧ t = { s with mem := t.mem } ∧ t.Inv ∧
      (∀ i, (h : i < bytes.length) → t.mem.read i = bytes[i]) ∧
      (∀ a, bytes.length ≤ a → t.mem.read a = s.mem.read a)) ∧
    (256 < bytes.length → s.loadBytes bytes = none)

/-- `60_exceptions.md` section 6 (D22): the first offending line, a malformed one or the first whose byte would go to
address 256, is reported by its number, and no step runs. Five things here are the model's choice: lines are numbered
from 1 and white space around a literal is ignored (log entry 9); of several offending lines the first in line order
is reported, of whichever sort (log entry 17); the failed load is the status Faulted, and leaves everything else,
memory too, as it was before the load (log entry 8); the absent step is the host's outcome fault (log entry 6). -/
def Obligations.OffendingLineIsReportedAndNoStepRuns : Prop :=
  ∀ (s : State) (good rest : List (List Char)) (bad : List Char),
    (∀ l ∈ good, classifyLine l ≠ .malformed) →
    (good.filter fun l => classifyLine l != .skip).length ≤ 256 →
    classifyLine bad = .malformed ∨
      (classifyLine bad ≠ .skip ∧ (good.filter fun l => classifyLine l != .skip).length = 256) →
      s.loadImage (good ++ bad :: rest) = withError s (.malformedProgramLine (good.length + 1)) ∧
      step (s.loadImage (good ++ bad :: rest)) = .fault (.faulted (.malformedProgramLine (good.length + 1)))

/-! ## Runs -/

/-- `40_loop.md` section 3: an observation reached with some fuel is reached with any more; so an answer under fuel
is the end of the run, and none is not a halt. -/
def Obligations.MoreFuelGivesTheSameObservation : Prop :=
  ∀ (n k : Nat) (s : State) (o : Observation), runFor n s = some o → runFor (n + k) s = some o
end

