-- ==== Sys2Proof/Laws/Memory.lean ====
section
/-! SUPPORT. The laws of memory: what a read gives after a write, and that every operation keeps the canonical
form. -/

namespace Sys2Proof.Machine

@[simp] theorem Memory.read_nil (a : Nat) : Memory.read [] a = unlistedByte := rfl

theorem Memory.read_cons (b : Nat) (w : Byte) (m : Memory) (a : Nat) :
    Memory.read ((b, w) :: m) a = if a = b then w else m.read a := rfl

theorem Memory.wf_nil : Memory.wf [] := by simp [Memory.wf]

theorem Memory.wf_cons {b : Nat} {w : Byte} {m : Memory} :
    Memory.wf ((b, w) :: m) ↔ (∀ c ∈ m, b < c.1) ∧ (b < 256 ∧ w ≠ unlistedByte) ∧ m.wf := by
  simp only [Memory.wf, List.pairwise_cons, List.forall_mem_cons]
  tauto

/-- Below its first listed address a memory reads as unlisted. -/
theorem Memory.read_below {m : Memory} {a : Nat} (h : ∀ c ∈ m, a < c.1) : m.read a = unlistedByte := by
  induction m with
  | nil => rfl
  | cons c m ih =>
    obtain ⟨b, w⟩ := c
    have hb : a < b := h (b, w) (by simp)
    rw [Memory.read_cons, if_neg (by omega)]
    exact ih fun d hd => h d (by simp [hd])

theorem Memory.read_consCell (a : Nat) (v : Byte) (m : Memory) (c : Nat) (h : m.read a = unlistedByte) :
    (Memory.consCell a v m).read c = if c = a then v else m.read c := by
  unfold Memory.consCell
  split
  · next hv =>
    split
    · next hc => rw [hc, h, hv]
    · rfl
  · exact Memory.read_cons a v m c

theorem Memory.read_write {m : Memory} (hm : m.wf) (a : Nat) (v : Byte) (c : Nat) :
    (m.write a v).read c = if c = a then v else m.read c := by
  induction m with
  | nil => exact Memory.read_consCell a v [] c rfl
  | cons d m ih =>
    obtain ⟨b, w⟩ := d
    obtain ⟨hlow, -, hwf⟩ := Memory.wf_cons.1 hm
    simp only [Memory.write]
    split
    · next hab =>
      refine Memory.read_consCell a v _ c (Memory.read_below ?_)
      rintro ⟨e, u⟩ he
      rcases List.mem_cons.1 he with he | he
      · rw [Prod.mk.injEq] at he; omega
      · have := hlow _ he; omega
    · split
      · next hab =>
        subst hab
        rw [Memory.read_consCell a v m c (Memory.read_below hlow), Memory.read_cons]
        split <;> simp_all
      · next hab =>
        rw [Memory.read_cons, Memory.read_cons, ih hwf]
        split
        · next hc => rw [if_neg (by omega)]
        · rfl

theorem Memory.mem_write {m : Memory} {a : Nat} {v : Byte} {c : Host.Cell} (h : c ∈ m.write a v) :
    c ∈ m ∨ (c = (a, v) ∧ v ≠ unlistedByte) := by
  have key : ∀ n : Memory, c ∈ Memory.consCell a v n → c ∈ n ∨ (c = (a, v) ∧ v ≠ unlistedByte) := by
    intro n hn
    unfold Memory.consCell at hn
    split at hn
    · exact .inl hn
    · next hv => exact (List.mem_cons.1 hn).elim (fun e => .inr ⟨e, hv⟩) .inl
  induction m with
  | nil => exact key [] h
  | cons d m ih =>
    obtain ⟨b, w⟩ := d
    simp only [Memory.write] at h
    split at h
    · exact key _ h
    · split at h
      · exact (key _ h).imp_left (List.mem_cons_of_mem _)
      · rcases List.mem_cons.1 h with h | h
        · exact .inl (by simp [h])
        · exact (ih h).imp_left (List.mem_cons_of_mem _)

theorem Memory.consCell_wf {m : Memory} {a : Nat} {v : Byte} (hm : m.wf) (ha : a < 256)
    (h : ∀ c ∈ m, a < c.1) : (Memory.consCell a v m).wf := by
  unfold Memory.consCell
  split
  · exact hm
  · next hv => exact Memory.wf_cons.2 ⟨h, ⟨ha, hv⟩, hm⟩

/-- A write of one cell keeps the canonical form. -/
theorem Memory.write_wf {m : Memory} (hm : m.wf) {a : Nat} (ha : a < 256) (v : Byte) : (m.write a v).wf := by
  induction m with
  | nil => exact Memory.consCell_wf hm ha (by simp)
  | cons d m ih =>
    obtain ⟨b, w⟩ := d
    obtain ⟨hlow, hb, hwf⟩ := Memory.wf_cons.1 hm
    simp only [Memory.write]
    split
    · next hab =>
      refine Memory.consCell_wf hm ha ?_
      rintro ⟨e, u⟩ he
      rcases List.mem_cons.1 he with he | he
      · rw [Prod.mk.injEq] at he; omega
      · have := hlow _ he; omega
    · split
      · next hab => subst hab; exact Memory.consCell_wf hwf ha hlow
      · next hab =>
        refine Memory.wf_cons.2 ⟨fun c hc => ?_, hb, ih hwf⟩
        rcases Memory.mem_write hc with hc | ⟨rfl, -⟩
        · exact hlow c hc
        · show b < a
          omega

/-- A write of consecutive cells keeps the canonical form. -/
theorem Memory.writeFrom_wf {m : Memory} (hm : m.wf) (bytes : List Byte) {a : Nat}
    (h : a + bytes.length ≤ 256) : (m.writeFrom a bytes).wf := by
  induction bytes generalizing m a with
  | nil => exact hm
  | cons v vs ih =>
    rw [List.length_cons] at h
    exact ih (Memory.write_wf hm (by omega) v) (by omega)

/-- What a read gives after a write of consecutive cells. -/
theorem Memory.read_writeFrom {m : Memory} (hm : m.wf) (bytes : List Byte) {a : Nat}
    (h : a + bytes.length ≤ 256) (c : Nat) :
    (m.writeFrom a bytes).read c = if a ≤ c then bytes.getD (c - a) (m.read c) else m.read c := by
  induction bytes generalizing m a with
  | nil => simp [Memory.writeFrom]
  | cons v vs ih =>
    rw [List.length_cons] at h
    rw [Memory.writeFrom, ih (Memory.write_wf hm (by omega) v) (by omega), Memory.read_write hm]
    by_cases hca : c = a
    · subst hca
      simp
    · by_cases hlt : a + 1 ≤ c
      · obtain ⟨d, rfl⟩ : ∃ d, c = a + 1 + d := ⟨c - (a + 1), by omega⟩
        simp [show a + 1 + d - a = d + 1 by omega, hca, show a ≤ a + 1 + d by omega]
      · simp [hlt, hca, show ¬ a ≤ c by omega]

/-- A cell a memory lists is in the address space. -/
theorem Memory.read_eq_unlisted {m : Memory} (hm : m.wf) {a : Nat} (ha : 256 ≤ a) :
    m.read a = unlistedByte := by
  induction m with
  | nil => rfl
  | cons d m ih =>
    obtain ⟨b, w⟩ := d
    obtain ⟨-, ⟨hb, -⟩, hwf⟩ := Memory.wf_cons.1 hm
    rw [Memory.read_cons, if_neg (by omega), ih hwf]

/-- `MemRead` at an 8-bit address never raises. -/
theorem State.memRead_byte (s : State) (a : Byte) : s.memRead a.toNat = some (s.load a) :=
  if_pos a.isLt

/-- `MemWrite` at an 8-bit address never raises. -/
theorem State.memWrite_byte (s : State) (a v : Byte) : s.memWrite a.toNat v = some (s.store a v) :=
  if_pos a.isLt

/-- `MemWrite` keeps the canonical form. -/
theorem State.memWrite_wf {s t : State} {a : Nat} {v : Byte} (h : s.memWrite a v = some t) (hs : s.mem.wf) :
    t.mem.wf := by
  unfold State.memWrite at h
  split at h
  · next ha => cases h; exact Memory.write_wf hs ha v
  · cases h

theorem State.store_wf {s : State} (hs : s.mem.wf) (a v : Byte) : (s.store a v).mem.wf :=
  Memory.write_wf hs a.isLt v

/-- Reset memory is in canonical form. -/
theorem reset_mem_wf : State.reset.mem.wf := Memory.wf_nil

end Sys2Proof.Machine
end

