-- ==== Sys2Proof/Laws/State.lean ====
section
/-! SUPPORT. One lemma per field per update of the state, each true by rfl, so that no later proof unfolds a
record update; and the register read after each update. -/

namespace Sys2Proof.Machine

@[simp] theorem State.setReg_mem (s : State) (r : RegIdx) (v : Byte) : (s.setReg r v).mem = s.mem := rfl
@[simp] theorem State.setReg_x (s : State) (r : RegIdx) (v : Byte) : (s.setReg r v).x = s.x.set r v := rfl
@[simp] theorem State.setReg_pc (s : State) (r : RegIdx) (v : Byte) : (s.setReg r v).pc = s.pc := rfl
@[simp] theorem State.setReg_fl (s : State) (r : RegIdx) (v : Byte) : (s.setReg r v).fl = s.fl := rfl
@[simp] theorem State.setReg_status (s : State) (r : RegIdx) (v : Byte) : (s.setReg r v).status = s.status := rfl
@[simp] theorem State.setReg_out (s : State) (r : RegIdx) (v : Byte) : (s.setReg r v).out = s.out := rfl
@[simp] theorem State.setReg_params (s : State) (r : RegIdx) (v : Byte) : (s.setReg r v).params = s.params := rfl

@[simp] theorem State.advance_mem (s : State) (n : Nat) : (s.advance n).mem = s.mem := rfl
@[simp] theorem State.advance_x (s : State) (n : Nat) : (s.advance n).x = s.x := rfl
@[simp] theorem State.advance_pc (s : State) (n : Nat) : (s.advance n).pc = s.pc + 1 + n := rfl
@[simp] theorem State.advance_fl (s : State) (n : Nat) : (s.advance n).fl = s.fl := rfl
@[simp] theorem State.advance_status (s : State) (n : Nat) : (s.advance n).status = s.status := rfl
@[simp] theorem State.advance_out (s : State) (n : Nat) : (s.advance n).out = s.out := rfl
@[simp] theorem State.advance_params (s : State) (n : Nat) : (s.advance n).params = s.params := rfl

@[simp] theorem State.jumpTo_mem (s : State) (b : Byte) : (s.jumpTo b).mem = s.mem := rfl
@[simp] theorem State.jumpTo_x (s : State) (b : Byte) : (s.jumpTo b).x = s.x := rfl
@[simp] theorem State.jumpTo_pc (s : State) (b : Byte) : (s.jumpTo b).pc = b.toNat := rfl
@[simp] theorem State.jumpTo_fl (s : State) (b : Byte) : (s.jumpTo b).fl = s.fl := rfl
@[simp] theorem State.jumpTo_status (s : State) (b : Byte) : (s.jumpTo b).status = s.status := rfl
@[simp] theorem State.jumpTo_out (s : State) (b : Byte) : (s.jumpTo b).out = s.out := rfl
@[simp] theorem State.jumpTo_params (s : State) (b : Byte) : (s.jumpTo b).params = s.params := rfl

@[simp] theorem State.setFl_mem (s : State) (v : Byte) : (s.setFl v).mem = s.mem := rfl
@[simp] theorem State.setFl_x (s : State) (v : Byte) : (s.setFl v).x = s.x := rfl
@[simp] theorem State.setFl_pc (s : State) (v : Byte) : (s.setFl v).pc = s.pc := rfl
@[simp] theorem State.setFl_fl (s : State) (v : Byte) : (s.setFl v).fl = v := rfl
@[simp] theorem State.setFl_status (s : State) (v : Byte) : (s.setFl v).status = s.status := rfl
@[simp] theorem State.setFl_out (s : State) (v : Byte) : (s.setFl v).out = s.out := rfl
@[simp] theorem State.setFl_params (s : State) (v : Byte) : (s.setFl v).params = s.params := rfl

@[simp] theorem State.emit_mem (s : State) (v : Byte) : (s.emit v).mem = s.mem := rfl
@[simp] theorem State.emit_x (s : State) (v : Byte) : (s.emit v).x = s.x := rfl
@[simp] theorem State.emit_pc (s : State) (v : Byte) : (s.emit v).pc = s.pc := rfl
@[simp] theorem State.emit_fl (s : State) (v : Byte) : (s.emit v).fl = s.fl := rfl
@[simp] theorem State.emit_status (s : State) (v : Byte) : (s.emit v).status = s.status := rfl
@[simp] theorem State.emit_out (s : State) (v : Byte) : (s.emit v).out = s.out ++ [v] := rfl
@[simp] theorem State.emit_params (s : State) (v : Byte) : (s.emit v).params = s.params := rfl

@[simp] theorem State.halt_mem (s : State) : s.halt.mem = s.mem := rfl
@[simp] theorem State.halt_x (s : State) : s.halt.x = s.x := rfl
@[simp] theorem State.halt_pc (s : State) : s.halt.pc = s.pc := rfl
@[simp] theorem State.halt_fl (s : State) : s.halt.fl = s.fl := rfl
@[simp] theorem State.halt_status (s : State) : s.halt.status = .halted := rfl
@[simp] theorem State.halt_out (s : State) : s.halt.out = s.out := rfl
@[simp] theorem State.halt_params (s : State) : s.halt.params = s.params := rfl

@[simp] theorem State.raise_mem (s : State) (r : FaultRecord) : (s.raise r).mem = s.mem := rfl
@[simp] theorem State.raise_x (s : State) (r : FaultRecord) : (s.raise r).x = s.x := rfl
@[simp] theorem State.raise_pc (s : State) (r : FaultRecord) : (s.raise r).pc = s.pc := rfl
@[simp] theorem State.raise_fl (s : State) (r : FaultRecord) : (s.raise r).fl = s.fl := rfl
@[simp] theorem State.raise_status (s : State) (r : FaultRecord) : (s.raise r).status = .faulted r := rfl
@[simp] theorem State.raise_out (s : State) (r : FaultRecord) : (s.raise r).out = s.out := rfl
@[simp] theorem State.raise_params (s : State) (r : FaultRecord) : (s.raise r).params = s.params := rfl

@[simp] theorem State.store_mem (s : State) (a v : Byte) : (s.store a v).mem = s.mem.write a.toNat v := rfl
@[simp] theorem State.store_x (s : State) (a v : Byte) : (s.store a v).x = s.x := rfl
@[simp] theorem State.store_pc (s : State) (a v : Byte) : (s.store a v).pc = s.pc := rfl
@[simp] theorem State.store_fl (s : State) (a v : Byte) : (s.store a v).fl = s.fl := rfl
@[simp] theorem State.store_status (s : State) (a v : Byte) : (s.store a v).status = s.status := rfl
@[simp] theorem State.store_out (s : State) (a v : Byte) : (s.store a v).out = s.out := rfl
@[simp] theorem State.store_params (s : State) (a v : Byte) : (s.store a v).params = s.params := rfl

@[simp] theorem State.decSp_mem (s : State) : s.decSp.mem = s.mem := rfl
@[simp] theorem State.decSp_x (s : State) : s.decSp.x = s.x.set spIndex (s.sp - 1) := rfl
@[simp] theorem State.decSp_pc (s : State) : s.decSp.pc = s.pc := rfl
@[simp] theorem State.decSp_fl (s : State) : s.decSp.fl = s.fl := rfl
@[simp] theorem State.decSp_status (s : State) : s.decSp.status = s.status := rfl
@[simp] theorem State.decSp_out (s : State) : s.decSp.out = s.out := rfl
@[simp] theorem State.decSp_params (s : State) : s.decSp.params = s.params := rfl

@[simp] theorem State.incSp_mem (s : State) : s.incSp.mem = s.mem := rfl
@[simp] theorem State.incSp_x (s : State) : s.incSp.x = s.x.set spIndex (s.sp + 1) := rfl
@[simp] theorem State.incSp_pc (s : State) : s.incSp.pc = s.pc := rfl
@[simp] theorem State.incSp_fl (s : State) : s.incSp.fl = s.fl := rfl
@[simp] theorem State.incSp_status (s : State) : s.incSp.status = s.status := rfl
@[simp] theorem State.incSp_out (s : State) : s.incSp.out = s.out := rfl
@[simp] theorem State.incSp_params (s : State) : s.incSp.params = s.params := rfl

theorem State.reg_def (s : State) (r : RegIdx) : s.reg r = s.x[r] := rfl

@[simp] theorem State.reg_setReg_self (s : State) (r : RegIdx) (v : Byte) : (s.setReg r v).reg r = v := by
  simp [State.reg]

theorem State.reg_setReg_ne (s : State) {r q : RegIdx} (v : Byte) (h : q ≠ r) :
    (s.setReg r v).reg q = s.reg q := by
  have : r.val ≠ q.val := fun e => h (Fin.ext e.symm)
  simp [State.reg, this]

theorem State.reg_setReg (s : State) (r q : RegIdx) (v : Byte) :
    (s.setReg r v).reg q = if q = r then v else s.reg q := by
  split
  · next h => rw [h, State.reg_setReg_self]
  · next h => exact State.reg_setReg_ne s v h

@[simp] theorem State.advance_reg (s : State) (n : Nat) (q : RegIdx) : (s.advance n).reg q = s.reg q := rfl
@[simp] theorem State.jumpTo_reg (s : State) (b : Byte) (q : RegIdx) : (s.jumpTo b).reg q = s.reg q := rfl
@[simp] theorem State.setFl_reg (s : State) (v : Byte) (q : RegIdx) : (s.setFl v).reg q = s.reg q := rfl
@[simp] theorem State.emit_reg (s : State) (v : Byte) (q : RegIdx) : (s.emit v).reg q = s.reg q := rfl
@[simp] theorem State.halt_reg (s : State) (q : RegIdx) : s.halt.reg q = s.reg q := rfl
@[simp] theorem State.raise_reg (s : State) (r : FaultRecord) (q : RegIdx) : (s.raise r).reg q = s.reg q := rfl
@[simp] theorem State.store_reg (s : State) (a v : Byte) (q : RegIdx) : (s.store a v).reg q = s.reg q := rfl

@[simp] theorem State.advance_sp (s : State) (n : Nat) : (s.advance n).sp = s.sp := rfl
@[simp] theorem State.jumpTo_sp (s : State) (b : Byte) : (s.jumpTo b).sp = s.sp := rfl
@[simp] theorem State.setFl_sp (s : State) (v : Byte) : (s.setFl v).sp = s.sp := rfl
@[simp] theorem State.emit_sp (s : State) (v : Byte) : (s.emit v).sp = s.sp := rfl
@[simp] theorem State.halt_sp (s : State) : s.halt.sp = s.sp := rfl
@[simp] theorem State.raise_sp (s : State) (r : FaultRecord) : (s.raise r).sp = s.sp := rfl
@[simp] theorem State.store_sp (s : State) (a v : Byte) : (s.store a v).sp = s.sp := rfl

/-- The register file after SP's pre-decrement. -/
theorem State.decSp_reg (s : State) (q : RegIdx) :
    s.decSp.reg q = if q = spIndex then s.sp - 1 else s.reg q := State.reg_setReg s spIndex q _

/-- The register file after SP's post-increment. -/
theorem State.incSp_reg (s : State) (q : RegIdx) :
    s.incSp.reg q = if q = spIndex then s.sp + 1 else s.reg q := State.reg_setReg s spIndex q _

end Sys2Proof.Machine
end

