-- ==== Sys2Proof/Laws/Operands.lean ====
section
/-! SUPPORT. For each shared operation, one lemma that says once everything it can do; provers cite it instead
of unfolding the operation. -/

namespace Sys2Proof.Machine

theorem regOf_eq_some {b : Byte} {r : RegIdx} : regOf b = some r ↔ Names b r := by
  unfold regOf Names
  split
  · simp [Fin.ext_iff]
  · next h => have := r.isLt; simp; omega

theorem regOf_eq_none {b : Byte} : regOf b = none ↔ 7 < b.toNat := by
  unfold regOf
  split
  · next h => simp; omega
  · next h => simp; omega

/-- An operand byte either names a register or is above 7. -/
theorem names_or_bad (b : Byte) : (∃ r, Names b r) ∨ 7 < b.toNat := by
  by_cases h : b.toNat < 8
  · exact .inl ⟨⟨b.toNat, h⟩, rfl⟩
  · exact .inr (by omega)

theorem Names.le {b : Byte} {r : RegIdx} (h : Names b r) : b.toNat ≤ 7 := by
  have := r.isLt
  unfold Names at h
  omega

/-- A register operand below 8 goes on with its register. -/
theorem State.withReg_names (s : State) (k : Mnemonic) {b : Byte} {r : RegIdx} (h : Names b r)
    (body : RegIdx → Result) : s.withReg k b body = body r := by
  rw [State.withReg, regOf_eq_some.2 h]

/-- A register operand above 7 raises AddressOutOfRange with space register. -/
theorem State.withReg_bad (s : State) (k : Mnemonic) {b : Byte} (h : 7 < b.toNat) (body : RegIdx → Result) :
    s.withReg k b body
      = .next (s.raise (.addressOutOfRange .register b.toNat s.pc (some (s.opcodeOf k)))) := by
  rw [State.withReg, regOf_eq_none.2 h]

theorem State.pushOk_iff (s : State) : s.pushOk = true ↔ 1 ≤ s.sp.toNat ∧ s.sp.toNat ≤ s.params.spInit.toNat := by
  have : s.sp = 0 ↔ s.sp.toNat = 0 := ⟨fun h => by rw [h]; rfl, fun h => BitVec.eq_of_toNat_eq h⟩
  simp only [State.pushOk, Bool.and_eq_true, bne_iff_ne, ne_eq, this, decide_eq_true_eq]
  omega

theorem State.popOk_iff (s : State) : s.popOk = true ↔ s.sp.toNat < s.params.spInit.toNat := by
  simp [State.popOk]

theorem State.withPush_ok (s : State) (k : Mnemonic) (body : Result) (h : s.pushOk = true) :
    s.withPush k body = body := if_pos h

theorem State.withPush_bad (s : State) (k : Mnemonic) (body : Result) (h : s.pushOk = false) :
    s.withPush k body
      = .next (s.raise (.addressOutOfRange .stack (s.sp.toNat - 1) s.pc (some (s.opcodeOf k)))) :=
  if_neg (by simp [h])

theorem State.withPop_ok (s : State) (k : Mnemonic) (body : Byte → Result) (h : s.popOk = true) :
    s.withPop k body = body (s.load s.sp) := if_pos h

theorem State.withPop_bad (s : State) (k : Mnemonic) (body : Byte → Result) (h : s.popOk = false) :
    s.withPop k body
      = .next (s.raise (.addressOutOfRange .stack s.sp.toNat s.pc (some (s.opcodeOf k)))) :=
  if_neg (by simp [h])

/-- SP's pre-decrement does not wrap where a push is allowed. -/
theorem State.pushAddr_toNat (s : State) (h : s.pushOk = true) : s.pushAddr.toNat = s.sp.toNat - 1 := by
  have := (s.pushOk_iff.1 h).1
  rw [State.pushAddr, BitVec.toNat_sub_of_le]
  · rfl
  · rw [BitVec.le_def]; exact this

/-- SP's post-increment does not wrap where a pop is allowed. -/
theorem State.incSp_toNat (s : State) (h : s.popOk = true) : (s.sp + 1).toNat = s.sp.toNat + 1 := by
  have := s.popOk_iff.1 h
  have := s.params.spInit.isLt
  rw [BitVec.toNat_add]
  exact Nat.mod_eq_of_lt (by show s.sp.toNat + 1 < 256; omega)

/-- An ALU instruction whose operands name registers. -/
theorem State.alu_names (s : State) (op : Mnemonic) {ra rb : Byte} {a b : RegIdx} (ha : Names ra a)
    (hb : Names rb b) :
    s.alu op ra rb =
      match aluApply op (s.reg a) (s.reg b) with
      | .value v => .next ((s.setReg a v).advance 2)
      | .divisionByZero => .next (s.raise (.divisionByZero s.pc (s.opcodeOf op)))
      | .unsupported => .next (s.raise (.unsupportedAluOperation s.pc (s.opcodeOf op))) :=
  (State.withReg_names _ _ ha _).trans (State.withReg_names _ _ hb _)

/-- An ALU instruction reports a bad first operand before a bad second one. -/
theorem State.alu_bad_first (s : State) (op : Mnemonic) {ra : Byte} (rb : Byte) (h : 7 < ra.toNat) :
    s.alu op ra rb
      = .next (s.raise (.addressOutOfRange .register ra.toNat s.pc (some (s.opcodeOf op)))) :=
  State.withReg_bad _ _ h _

theorem State.alu_bad_second (s : State) (op : Mnemonic) {ra rb : Byte} {a : RegIdx} (ha : Names ra a)
    (h : 7 < rb.toNat) :
    s.alu op ra rb
      = .next (s.raise (.addressOutOfRange .register rb.toNat s.pc (some (s.opcodeOf op)))) := by
  rw [State.alu, State.withReg_names _ _ ha, State.withReg_bad _ _ h]

theorem compareFlag_bit (a b : Byte) : compareFlag a b = 0 ∨ compareFlag a b = 1 := by
  unfold compareFlag
  split <;> simp

end Sys2Proof.Machine
end

