-- ==== Sys2Proof/Laws/Step.lean ====
section
/-! SUPPORT. What looking an opcode up, fetching and stepping can do. -/

namespace Sys2Proof

theorem mem_decodedMnemonics {ext : Bool} {k : Mnemonic} :
    k ∈ decodedMnemonics ext ↔ (ext = true ∨ k.needsAluExt = false) := by
  have : k ∈ Mnemonic.all := by cases k <;> decide
  simp [decodedMnemonics, this]

/-- A name the lookup answers is one the decoder knows, and its byte is the byte looked up. -/
theorem OpcodeMap.lookup_eq_some {m : OpcodeMap} {ext : Bool} {b : Byte} {k : Mnemonic}
    (h : m.lookup ext b = some k) : k ∈ decodedMnemonics ext ∧ m.byteOf k = b := by
  unfold OpcodeMap.lookup at h
  exact ⟨List.mem_of_find?_eq_some h, by simpa using List.find?_some h⟩

/-- A byte the lookup does not know is no decoded name's byte. -/
theorem OpcodeMap.lookup_eq_none {m : OpcodeMap} {ext : Bool} {b : Byte} :
    m.lookup ext b = none ↔ ∀ k ∈ decodedMnemonics ext, m.byteOf k ≠ b := by
  simp [OpcodeMap.lookup]

/-- With an unambiguous map, each decoded name is found by its own byte. -/
theorem OpcodeMap.lookup_byteOf {m : OpcodeMap} {ext : Bool} (hm : m.wf ext) {k : Mnemonic}
    (hk : k ∈ decodedMnemonics ext) : m.lookup ext (m.byteOf k) = some k := by
  cases h : m.lookup ext (m.byteOf k) with
  | none => exact absurd rfl (OpcodeMap.lookup_eq_none.1 h k hk)
  | some j =>
    obtain ⟨hj, e⟩ := OpcodeMap.lookup_eq_some h
    exact congrArg some (List.inj_on_of_nodup_map hm hj hk e)

theorem Instr.length_operands (i : Instr) : i.operands.length = i.mnemonic.operandCount := by
  cases i <;> rfl

theorem Instr.mnemonic_build (k : Mnemonic) (o1 o2 : Byte) : (Instr.build k o1 o2).mnemonic = k := by
  cases k <;> rfl

theorem Mnemonic.operandCount_le (k : Mnemonic) : k.operandCount ≤ 2 := by
  cases k <;> decide

namespace Machine

/-- A step from a Running state takes the error of its fetch, or executes the instruction fetched. -/
theorem step_running {s : State} (h : s.status = .running) :
    step s = match s.fetchDecode with
      | .error r => .next (s.raise r)
      | .ok i => exec i s := by
  cases hf : s.fetchDecode <;> simp only [step, h, hf]

/-- Where a step answers a next state, the block was Running and one of two things happened. -/
theorem step_cases {s t : State} (h : step s = .next t) :
    s.status = .running ∧
      ((∃ r, s.fetchDecode = .error r ∧ t = s.raise r) ∨ ∃ i, s.fetchDecode = .ok i ∧ exec i s = .next t) := by
  cases hs : s.status with
  | running =>
    rw [step_running hs] at h
    refine ⟨rfl, ?_⟩
    cases hf : s.fetchDecode with
    | error r => rw [hf] at h; exact .inl ⟨r, rfl, by simpa using h.symm⟩
    | ok i => rw [hf] at h; exact .inr ⟨i, rfl, h⟩
  | halted => simp [step, hs] at h
  | faulted r => simp [step, hs] at h

/-- An operand fetch reads memory, or raises with space memory. -/
theorem State.fetchOperand_eq (s : State) (opcode : Byte) (k : Nat) :
    s.fetchOperand opcode k =
      if s.pc + k < 256 then .ok (s.mem.read (s.pc + k))
      else .error (.addressOutOfRange .memory (s.pc + k) s.pc (some opcode)) := by
  unfold State.fetchOperand State.memRead
  split <;> split <;> simp_all

/-- What operand fetch can do: the instruction it answers has the name asked for, and its bytes lie in
memory. -/
theorem State.fetchOperands_ok {s : State} {b : Byte} {k : Mnemonic} {i : Instr}
    (h : s.fetchOperands b k = .ok i) :
    i.mnemonic = k ∧ (k.operandCount = 0 ∨ s.pc + k.operandCount < 256) := by
  unfold State.fetchOperands at h
  simp only [State.fetchOperand_eq] at h
  split at h
  · next h0 => cases h; exact ⟨Instr.mnemonic_build .., .inl h0⟩
  · next h1 =>
    by_cases hp : s.pc + 1 < 256
    · simp only [hp, if_true] at h
      cases h
      exact ⟨Instr.mnemonic_build .., .inr (by omega)⟩
    · simp only [hp, if_false] at h
      cases h
  · next h0 h1 =>
    have h2 := k.operandCount_le
    by_cases hp : s.pc + 1 < 256
    · by_cases hq : s.pc + 2 < 256
      · simp only [hp, hq, if_true] at h
        cases h
        exact ⟨Instr.mnemonic_build .., .inr (by omega)⟩
      · simp only [hp, hq, if_true, if_false] at h
        cases h
    · simp only [hp, if_false] at h
      cases h

/-- What fetch and decode can do: an instruction they answer is one the decoder knows, its opcode byte is the
byte at `pc`, and all of its bytes lie in memory. -/
theorem State.fetchDecode_ok {s : State} {i : Instr} (h : s.fetchDecode = .ok i) :
    i.mnemonic ∈ decodedMnemonics s.params.aluExt ∧ s.opcodeOf i.mnemonic = s.mem.read s.pc ∧
      s.pc + i.mnemonic.operandCount < 256 := by
  unfold State.fetchDecode State.memRead at h
  by_cases hp : s.pc < 256
  · simp only [hp, if_true] at h
    split at h
    · cases h
    · next k hk =>
      obtain ⟨hmem, hb⟩ := OpcodeMap.lookup_eq_some hk
      obtain ⟨rfl, hn⟩ := State.fetchOperands_ok h
      exact ⟨hmem, hb, by rcases hn with hn | hn <;> omega⟩
  · simp only [hp, if_false] at h
    cases h

end Machine

end Sys2Proof
end

