-- ==== Sys2Proof/Laws/Exec.lean ====
section
/-! SUPPORT. Everything an instruction can do, said once: its effect, or the errors its checks can raise; and
what an effect keeps. -/

namespace Sys2Proof.Machine

/-- The effect of an instruction that raises nothing: the one next state its rule gives. -/
inductive Effect : Instr → State → State → Prop
  | ldi {ra imm s a} : Names ra a → Effect (.ldi ra imm) s ((s.setReg a imm).advance 2)
  | prn {ra s a} : Names ra a → Effect (.prn ra) s ((s.emit (s.reg a)).advance 1)
  | hlt {s} : Effect .hlt s (s.halt.advance 0)
  | add {ra rb s a b v} : Names ra a → Names rb b → aluApply .add (s.reg a) (s.reg b) = .value v →
      Effect (.add ra rb) s ((s.setReg a v).advance 2)
  | mul {ra rb s a b v} : Names ra a → Names rb b → aluApply .mul (s.reg a) (s.reg b) = .value v →
      Effect (.mul ra rb) s ((s.setReg a v).advance 2)
  | sub {ra rb s a b v} : Names ra a → Names rb b → aluApply .sub (s.reg a) (s.reg b) = .value v →
      Effect (.sub ra rb) s ((s.setReg a v).advance 2)
  | div {ra rb s a b v} : Names ra a → Names rb b → aluApply .div (s.reg a) (s.reg b) = .value v →
      Effect (.div ra rb) s ((s.setReg a v).advance 2)
  | push {ra s a} : Names ra a → s.pushOk = true →
      Effect (.push ra) s ((s.decSp.store s.pushAddr (s.decSp.reg a)).advance 1)
  | pop {ra s a} : Names ra a → s.popOk = true → ¬ (a = 7 ∧ s.load s.sp = 255) →
      Effect (.pop ra) s ((s.setReg a (s.load s.sp)).incSp.advance 1)
  | call {ra s a} : Names ra a → s.pushOk = true → ¬ 256 ≤ s.pc + 2 →
      Effect (.call ra) s ((s.decSp.store s.pushAddr (BitVec.ofNat 8 (s.pc + 2))).jumpTo (s.decSp.reg a))
  | ret {s} : s.popOk = true → Effect .ret s (s.incSp.jumpTo (s.load s.sp))
  | cmp {ra rb s a b} : Names ra a → Names rb b →
      Effect (.cmp ra rb) s ((s.setFl (compareFlag (s.reg a) (s.reg b))).advance 2)
  | jmp {ra s a} : Names ra a → Effect (.jmp ra) s (s.jumpTo (s.reg a))
  | jeq {ra s a} : Names ra a → Effect (.jeq ra) s (if s.flEqual then s.jumpTo (s.reg a) else s.advance 1)
  | jne {ra s a} : Names ra a → Effect (.jne ra) s (if s.flNotEqual then s.jumpTo (s.reg a) else s.advance 1)

/-- The errors an instruction's own checks can raise (`60_exceptions.md` rule R94, cases 3 to 7, and DIV by 0). -/
inductive Raises : Instr → State → FaultRecord → Prop
  | bad {i s b} : b ∈ i.registerOperands → 7 < b.toNat →
      Raises i s (.addressOutOfRange .register b.toNat s.pc (some (s.opcodeOf i.mnemonic)))
  | push {ra s} : s.pushOk = false →
      Raises (.push ra) s (.addressOutOfRange .stack (s.sp.toNat - 1) s.pc (some (s.opcodeOf .push)))
  | call {ra s} : s.pushOk = false →
      Raises (.call ra) s (.addressOutOfRange .stack (s.sp.toNat - 1) s.pc (some (s.opcodeOf .call)))
  | call2 {ra s} : 256 ≤ s.pc + 2 →
      Raises (.call ra) s (.addressOutOfRange .memory (s.pc + 2) s.pc (some (s.opcodeOf .call)))
  | pop {ra s} : s.popOk = false →
      Raises (.pop ra) s (.addressOutOfRange .stack s.sp.toNat s.pc (some (s.opcodeOf .pop)))
  | ret {s} : s.popOk = false → Raises .ret s (.addressOutOfRange .stack s.sp.toNat s.pc (some (s.opcodeOf .ret)))
  | pop2 {ra s} : Names ra 7 → s.load s.sp = 255 →
      Raises (.pop ra) s (.addressOutOfRange .stack 256 s.pc (some (s.opcodeOf .pop)))
  | div {ra rb s a b} : Names ra a → Names rb b → s.reg b = 0 →
      Raises (.div ra rb) s (.divisionByZero s.pc (s.opcodeOf .div))

theorem aluApply_value (op : Mnemonic) (a b : Byte)
    (h : op = .add ∨ op = .sub ∨ op = .mul ∨ (op = .div ∧ b ≠ 0)) : ∃ v, aluApply op a b = .value v := by
  rcases h with rfl | rfl | rfl | ⟨rfl, h⟩
  · exact ⟨_, rfl⟩
  · exact ⟨_, rfl⟩
  · exact ⟨_, rfl⟩
  · exact ⟨_, by rw [aluApply, if_neg h]⟩

/-- Everything an execution can do: its effect, or one of the errors it can raise. It always answers a next
state. -/
theorem exec_cases (i : Instr) (s : State) :
    (∃ t, exec i s = .next t ∧ Effect i s t) ∨ (∃ r, exec i s = .next (s.raise r) ∧ Raises i s r) := by
  have bad : ∀ (k : Mnemonic) (b : Byte) body, i.mnemonic = k → b ∈ i.registerOperands → 7 < b.toNat →
      exec i s = s.withReg k b body →
      (∃ t, exec i s = .next t ∧ Effect i s t) ∨ (∃ r, exec i s = .next (s.raise r) ∧ Raises i s r) := by
    intro k b body hk hb h7 he
    subst hk
    exact .inr ⟨_, by rw [he, s.withReg_bad _ h7], .bad hb h7⟩
  have alu : ∀ (op : Mnemonic) (ra rb : Byte), i.mnemonic = op → i.registerOperands = [ra, rb] →
      exec i s = s.alu op ra rb →
      (∀ a b v, Names ra a → Names rb b → aluApply op (s.reg a) (s.reg b) = .value v →
          Effect i s ((s.setReg a v).advance 2)) →
      (∀ a b, Names ra a → Names rb b →
          (∃ v, aluApply op (s.reg a) (s.reg b) = .value v) ∨ (aluApply op (s.reg a) (s.reg b) = .divisionByZero ∧
            Raises i s (.divisionByZero s.pc (s.opcodeOf op)))) →
      (∃ t, exec i s = .next t ∧ Effect i s t) ∨ (∃ r, exec i s = .next (s.raise r) ∧ Raises i s r) := by
    intro op ra rb hk hops he heff hv
    rcases names_or_bad ra with ⟨a, ha⟩ | h
    · rcases names_or_bad rb with ⟨b, hb⟩ | h
      · rw [s.alu_names op ha hb] at he
        rcases hv a b ha hb with ⟨v, hv⟩ | ⟨hv, hr⟩ <;> rw [hv] at he
        · exact .inl ⟨_, he, heff a b v ha hb hv⟩
        · exact .inr ⟨_, he, hr⟩
      · rw [s.alu_bad_second op ha h] at he
        subst hk
        exact .inr ⟨_, he, .bad (by simp [hops]) h⟩
    · rw [s.alu_bad_first op rb h] at he
      subst hk
      exact .inr ⟨_, he, .bad (by simp [hops]) h⟩
  cases i with
  | ldi ra imm =>
    rcases names_or_bad ra with ⟨a, ha⟩ | h
    · exact .inl ⟨_, by simp only [exec, execLdi]; rw [s.withReg_names _ ha], .ldi ha⟩
    · exact bad _ _ _ rfl (by simp [Instr.registerOperands]) h rfl
  | prn ra =>
    rcases names_or_bad ra with ⟨a, ha⟩ | h
    · exact .inl ⟨_, by simp only [exec, execPrn]; rw [s.withReg_names _ ha], .prn ha⟩
    · exact bad _ _ _ rfl (by simp [Instr.registerOperands]) h rfl
  | hlt => exact .inl ⟨_, rfl, .hlt⟩
  | add ra rb => exact alu .add ra rb rfl rfl rfl (fun a b v ha hb hv => .add ha hb hv) (fun a b ha hb =>
      .inl (aluApply_value _ _ _ (by simp)))
  | mul ra rb => exact alu .mul ra rb rfl rfl rfl (fun a b v ha hb hv => .mul ha hb hv) (fun a b ha hb =>
      .inl (aluApply_value _ _ _ (by simp)))
  | sub ra rb => exact alu .sub ra rb rfl rfl rfl (fun a b v ha hb hv => .sub ha hb hv) (fun a b ha hb =>
      .inl (aluApply_value _ _ _ (by simp)))
  | div ra rb =>
    refine alu .div ra rb rfl rfl rfl (fun a b v ha hb hv => .div ha hb hv) (fun a b ha hb => ?_)
    by_cases h0 : s.reg b = 0
    · exact .inr ⟨by simp [aluApply, h0], .div ha hb h0⟩
    · exact .inl (aluApply_value _ _ _ (.inr (.inr (.inr ⟨rfl, h0⟩))))
  | push ra =>
    rcases names_or_bad ra with ⟨a, ha⟩ | h
    · cases hp : s.pushOk with
      | true => exact .inl ⟨_, by simp only [exec, execPush]; rw [s.withReg_names _ ha, s.withPush_ok _ _ hp],
          .push ha hp⟩
      | false => exact .inr ⟨_, by simp only [exec, execPush]; rw [s.withReg_names _ ha, s.withPush_bad _ _ hp],
          .push hp⟩
    · exact bad _ _ _ rfl (by simp [Instr.registerOperands]) h rfl
  | pop ra =>
    rcases names_or_bad ra with ⟨a, ha⟩ | h
    · cases hp : s.popOk with
      | true =>
        by_cases h7 : a = 7 ∧ s.load s.sp = 255
        · exact .inr ⟨_, by simp only [exec, execPop]; rw [s.withReg_names _ ha, s.withPop_ok _ _ hp, if_pos h7],
            .pop2 (h7.1 ▸ ha) h7.2⟩
        · exact .inl ⟨_, by simp only [exec, execPop]; rw [s.withReg_names _ ha, s.withPop_ok _ _ hp, if_neg h7],
            .pop ha hp h7⟩
      | false => exact .inr ⟨_, by simp only [exec, execPop]; rw [s.withReg_names _ ha, s.withPop_bad _ _ hp],
          .pop hp⟩
    · exact bad _ _ _ rfl (by simp [Instr.registerOperands]) h rfl
  | call ra =>
    rcases names_or_bad ra with ⟨a, ha⟩ | h
    · cases hp : s.pushOk with
      | true =>
        by_cases h7 : 256 ≤ s.pc + 2
        · exact .inr ⟨_, by simp only [exec, execCall]; rw [s.withReg_names _ ha, s.withPush_ok _ _ hp, if_pos h7],
            .call2 h7⟩
        · exact .inl ⟨_, by simp only [exec, execCall]; rw [s.withReg_names _ ha, s.withPush_ok _ _ hp, if_neg h7],
            .call ha hp h7⟩
      | false => exact .inr ⟨_, by simp only [exec, execCall]; rw [s.withReg_names _ ha, s.withPush_bad _ _ hp],
          .call hp⟩
    · exact bad _ _ _ rfl (by simp [Instr.registerOperands]) h rfl
  | ret =>
    cases hp : s.popOk with
    | true => exact .inl ⟨_, by simp only [exec, execRet]; rw [s.withPop_ok _ _ hp], .ret hp⟩
    | false => exact .inr ⟨_, by simp only [exec, execRet]; rw [s.withPop_bad _ _ hp], .ret hp⟩
  | cmp ra rb =>
    rcases names_or_bad ra with ⟨a, ha⟩ | h
    · rcases names_or_bad rb with ⟨b, hb⟩ | h
      · exact .inl ⟨_, by simp only [exec, execCmp]; rw [s.withReg_names _ ha, s.withReg_names _ hb], .cmp ha hb⟩
      · exact .inr ⟨_, by simp only [exec, execCmp]; rw [s.withReg_names _ ha, s.withReg_bad _ h]; rfl,
          .bad (i := .cmp ra rb) (by simp [Instr.registerOperands]) h⟩
    · exact bad _ _ _ rfl (by simp [Instr.registerOperands]) h rfl
  | jmp ra =>
    rcases names_or_bad ra with ⟨a, ha⟩ | h
    · exact .inl ⟨_, by simp only [exec, execJmp]; rw [s.withReg_names _ ha], .jmp ha⟩
    · exact bad _ _ _ rfl (by simp [Instr.registerOperands]) h rfl
  | jeq ra =>
    rcases names_or_bad ra with ⟨a, ha⟩ | h
    · exact .inl ⟨_, by simp only [exec, execJeq]; rw [s.withReg_names _ ha], .jeq ha⟩
    · exact bad _ _ _ rfl (by simp [Instr.registerOperands]) h rfl
  | jne ra =>
    rcases names_or_bad ra with ⟨a, ha⟩ | h
    · exact .inl ⟨_, by simp only [exec, execJne]; rw [s.withReg_names _ ha], .jne ha⟩
    · exact bad _ _ _ rfl (by simp [Instr.registerOperands]) h rfl

/-- What a next state of an execution is. -/
theorem exec_inv {i : Instr} {s t : State} (h : exec i s = .next t) : Effect i s t ∨ ∃ r, Raises i s r ∧ t = s.raise r := by
  rcases exec_cases i s with ⟨u, h1, h2⟩ | ⟨r, h1, h2⟩ <;> rw [h1] at h <;> cases h
  · exact .inl h2
  · exact .inr ⟨r, h2, rfl⟩

theorem Effect.params_eq {i : Instr} {s t : State} (h : Effect i s t) : t.params = s.params := by
  cases h <;> simp [apply_ite State.params]

/-- An effect writes FL only for CMP. -/
theorem Effect.fl_eq {i : Instr} {s t : State} (h : Effect i s t) : (∃ ra rb, i = .cmp ra rb) ∨ t.fl = s.fl := by
  cases h <;> simp [apply_ite State.fl]

/-- An effect writes memory only for PUSH and CALL, one byte, below SP. -/
theorem Effect.mem_eq {i : Instr} {s t : State} (h : Effect i s t) :
    t.mem = s.mem ∨ ∃ v, s.pushOk = true ∧ (∃ ra, i = .push ra ∨ i = .call ra) ∧
      t.mem = s.mem.write s.pushAddr.toNat v := by
  cases h <;> try (left; simp [apply_ite State.mem]; done)
  · exact .inr ⟨_, ‹_›, ⟨_, .inl rfl⟩, rfl⟩
  · exact .inr ⟨_, ‹_›, ⟨_, .inr rfl⟩, rfl⟩

/-- An effect changes the status only for HLT. -/
theorem Effect.status_eq {i : Instr} {s t : State} (h : Effect i s t) :
    (i = .hlt ∧ t.status = .halted) ∨ (i ≠ .hlt ∧ t.status = s.status) := by
  cases h <;> simp [apply_ite State.status]

/-- An instruction that raises nothing has register operands below 8. -/
theorem Effect.wf {i : Instr} {s t : State} (h : Effect i s t) : i.wf := by
  have key : ∀ {b r}, Names b r → b.toNat < 8 := fun h => by have := h.le; omega
  cases h <;> simp [Instr.wf, Instr.registerOperands]
  all_goals first
    | exact key ‹_›
    | exact ⟨key (by assumption), key (by assumption)⟩

end Sys2Proof.Machine
end

