-- ==== Sys2Proof/Laws/Fetch.lean ====
section
/-! SUPPORT. The staged fetch of the loop and the decoder over a list of bytes agree. -/

namespace Sys2Proof.Machine

theorem State.bytesFrom_cons (s : State) {a : Nat} (h : a ≤ 255) :
    s.bytesFrom a = s.mem.read a :: s.bytesFrom (a + 1) := by
  unfold State.bytesFrom
  rw [show 256 - a = (256 - (a + 1)) + 1 by omega, List.range'_succ, List.map_cons]

theorem State.bytesFrom_above (s : State) {a : Nat} (h : 255 < a) : s.bytesFrom a = [] := by
  unfold State.bytesFrom
  rw [show 256 - a = 0 by omega]
  rfl

/-- The bytes at `pc` decode to an instruction exactly where fetch and decode answer it. -/
theorem instrAt_iff_fetchDecode {s : State} {i : Instr} : InstrAt s i ↔ s.fetchDecode = .ok i := by
  unfold InstrAt State.fetchDecode State.memRead
  by_cases hp : s.pc < 256
  · rw [s.bytesFrom_cons (show s.pc ≤ 255 by omega)]
    simp only [decode, hp, if_true]
    cases hk : s.params.opcodeMap.lookup s.params.aluExt (s.mem.read s.pc) with
    | none => simp
    | some k =>
      simp only [State.fetchOperands, State.fetchOperand_eq]
      by_cases h1 : s.pc + 1 < 256
      · rw [s.bytesFrom_cons (show s.pc + 1 ≤ 255 by omega)]
        by_cases h2 : s.pc + 2 < 256
        · rw [s.bytesFrom_cons (show s.pc + 1 + 1 ≤ 255 by omega)]
          cases k <;> simp [Mnemonic.operandCount, h1, h2]
        · rw [s.bytesFrom_above (show 255 < s.pc + 1 + 1 by omega)]
          cases k <;> simp [Mnemonic.operandCount, h1, h2]
      · rw [s.bytesFrom_above (show 255 < s.pc + 1 by omega)]
        cases k <;> simp [Mnemonic.operandCount, h1]
  · rw [s.bytesFrom_above (show 255 < s.pc by omega)]
    simp [decode, hp]

/-- The instruction at `pc` is one. -/
theorem InstrAt.unique {s : State} {i j : Instr} (hi : InstrAt s i) (hj : InstrAt s j) : i = j := by
  rw [instrAt_iff_fetchDecode] at hi hj
  rw [hi] at hj
  cases hj
  rfl

/-- What an instruction that fetch and decode answer says of the bytes at `pc`. -/
theorem State.fetchDecode_ok_lookup {s : State} {i : Instr} (h : s.fetchDecode = .ok i) :
    s.pc ≤ 255 ∧ s.params.opcodeMap.lookup s.params.aluExt (s.mem.read s.pc) = some i.mnemonic ∧
      s.pc + i.mnemonic.operandCount ≤ 255 := by
  have hn := (State.fetchDecode_ok h).2.2
  have hp : s.pc < 256 := by omega
  refine ⟨by omega, ?_, by omega⟩
  unfold State.fetchDecode State.memRead at h
  simp only [hp, if_true] at h
  split at h
  · cases h
  · next k hk => rw [hk, (State.fetchOperands_ok h).1]

/-- The errors that fetch and decode can report (rules R60 to R62). -/
theorem State.fetchDecode_error {s : State} {r : FaultRecord} (h : s.fetchDecode = .error r) :
    (255 < s.pc ∧ r = .addressOutOfRange .memory s.pc s.pc none) ∨
    (s.pc ≤ 255 ∧ s.params.opcodeMap.lookup s.params.aluExt (s.mem.read s.pc) = none ∧
      r = .unknownOpcode s.pc (s.mem.read s.pc)) ∨
    (∃ k, s.pc ≤ 255 ∧ s.params.opcodeMap.lookup s.params.aluExt (s.mem.read s.pc) = some k ∧
      255 < s.pc + k.operandCount ∧ ∃ a, r = .addressOutOfRange .memory a s.pc (some (s.mem.read s.pc))) := by
  by_cases hp : s.pc < 256
  · cases hl : s.params.opcodeMap.lookup s.params.aluExt (s.mem.read s.pc) with
    | none =>
      simp only [State.fetchDecode, State.memRead, hp, if_true, hl] at h
      cases h
      exact .inr (.inl ⟨by omega, rfl, rfl⟩)
    | some k =>
      simp only [State.fetchDecode, State.memRead, hp, if_true, hl, State.fetchOperands,
        State.fetchOperand_eq] at h
      refine .inr (.inr ⟨k, by omega, rfl, ?_⟩)
      by_cases h1 : s.pc + 1 < 256 <;> by_cases h2 : s.pc + 2 < 256 <;>
        cases k <;> simp [Mnemonic.operandCount, h1, h2] at h ⊢ <;>
          first | omega | exact ⟨by omega, _, h.symm⟩
  · simp only [State.fetchDecode, State.memRead, hp, if_false] at h
    cases h
    exact .inl ⟨by omega, rfl⟩

end Sys2Proof.Machine
end

