-- ==== Sys2Proof/Laws/PerInstr.lean ====
section
/-! SUPPORT. Statements about every instruction as syntax, proved per constructor. -/

namespace Sys2Proof.Laws.EncodedLength

/-- The encoding of the instruction, under any opcode map, has the instruction's length (rules R47, R52). -/
def Statement (i : Instr) : Prop := ∀ m : OpcodeMap, (encode m i).length = i.length

theorem ldi (ra imm : Byte) : Statement (.ldi ra imm) := fun _ => rfl
theorem prn (ra : Byte) : Statement (.prn ra) := fun _ => rfl
theorem hlt : Statement .hlt := fun _ => rfl
theorem add (ra rb : Byte) : Statement (.add ra rb) := fun _ => rfl
theorem mul (ra rb : Byte) : Statement (.mul ra rb) := fun _ => rfl
theorem push (ra : Byte) : Statement (.push ra) := fun _ => rfl
theorem pop (ra : Byte) : Statement (.pop ra) := fun _ => rfl
theorem call (ra : Byte) : Statement (.call ra) := fun _ => rfl
theorem ret : Statement .ret := fun _ => rfl
theorem cmp (ra rb : Byte) : Statement (.cmp ra rb) := fun _ => rfl
theorem jmp (ra : Byte) : Statement (.jmp ra) := fun _ => rfl
theorem jeq (ra : Byte) : Statement (.jeq ra) := fun _ => rfl
theorem jne (ra : Byte) : Statement (.jne ra) := fun _ => rfl
theorem sub (ra rb : Byte) : Statement (.sub ra rb) := fun _ => rfl
theorem div (ra rb : Byte) : Statement (.div ra rb) := fun _ => rfl

end Sys2Proof.Laws.EncodedLength
end

