-- ==== Sys2Proof/Tests/Slice0.lean ====
section
/-! SUPPORT. Tests, each expected value taken from the spec's encodings, examples and vectors, and for each
obligation with hypotheses a witness that meets them. -/

namespace Sys2Proof.Tests

open Sys2Proof Sys2Proof.Machine

/-! ## Well-formedness refuses ill-formed terms (rules R8, R16, R54) -/

theorem test_wf_refuses_first_register : ¬ (Instr.ldi 8 0).wf := by decide
theorem test_wf_refuses_second_register : ¬ (Instr.add 7 8).wf := by decide
theorem test_wf_accepts_every_immediate : (Instr.ldi 7 255).wf := by decide
theorem test_params_wf_refuses_sp_init_zero : ¬ Params.wf { defaultParams with spInit := 0 } := by decide
theorem test_map_wf_refuses_shared_byte : ¬ OpcodeMap.wf { OpcodeMap.ls8 with jne := 0x55 } false := by decide
theorem test_map_wf_ignores_undecoded_names : OpcodeMap.wf { OpcodeMap.ls8 with div := 0x55 } false := by decide
theorem test_memory_wf_refuses_listed_zero : ¬ Memory.wf [(3, 0)] := by decide
theorem test_memory_wf_refuses_unsorted : ¬ Memory.wf [(4, 1), (3, 1)] := by decide
theorem test_memory_wf_refuses_address_256 : ¬ Memory.wf [(256, 1)] := by decide

/-! ## Decoding: each word written out from rules R48 and R50 (byte 0, the opcode, is bits 7:0) -/

theorem test_decode_ldi : decodeTableWord 24 0b000010000000000010000010 = some (.ldi 0 8) := by decide
theorem test_decode_prn : decodeTableWord 16 0b0000001101000111 = some (.prn 3) := by decide
theorem test_decode_hlt : decodeTableWord 8 0b00000001 = some .hlt := by decide
theorem test_decode_add : decodeTableWord 24 0b000000010000000010100000 = some (.add 0 1) := by decide
theorem test_decode_mul : decodeTableWord 24 0b000000100000010110100010 = some (.mul 5 2) := by decide
theorem test_decode_push : decodeTableWord 16 0b0000010101000101 = some (.push 5) := by decide
theorem test_decode_pop : decodeTableWord 16 0b0000001001000110 = some (.pop 2) := by decide
theorem test_decode_call : decodeTableWord 16 0b0000000101010000 = some (.call 1) := by decide
theorem test_decode_ret : decodeTableWord 8 0b00010001 = some .ret := by decide
theorem test_decode_cmp : decodeTableWord 24 0b000000100000000010100111 = some (.cmp 0 2) := by decide
theorem test_decode_jmp : decodeTableWord 16 0b0000001101010100 = some (.jmp 3) := by decide
theorem test_decode_jeq : decodeTableWord 16 0b0000010001010101 = some (.jeq 4) := by decide
theorem test_decode_jne : decodeTableWord 16 0b0000010001010110 = some (.jne 4) := by decide
theorem test_decode_sub : decodeTableWord 24 0b000000010000000010100001 = some (.sub 0 1) := by decide
theorem test_decode_div : decodeTableWord 24 0b000000010000000010100011 = some (.div 0 1) := by decide

/-- 0x84 has operand count 2 in its bits 7:6 and is an unknown opcode all the same (rule R51). -/
theorem test_decode_reads_no_field : OpcodeMap.ls8.lookup true 0x84 = none := by decide

/-- A register index is the whole operand byte (rule R16): 8 is not R0. -/
theorem test_decode_keeps_the_whole_operand : decodeTableWord 16 0b0000100001000111 = some (.prn 8) := by decide

theorem test_encode_ldi : encode .ls8 (.ldi 1 9) = [0x82, 0x01, 0x09] := by decide

/-! ## One step each, from the vectors of `95_test_vectors.md` -/

/-- A state at reset but for bytes at `pc` and whatever `f` sets. -/
def at_ (pc : Nat) (bytes : List Byte) (f : State → State) : State :=
  f { State.reset with mem := Memory.writeFrom [] pc bytes, pc := pc }

/-- The state a step answers; the state itself where it answers none. -/
def after (s : State) : State :=
  match step s with
  | .next t => t
  | .fault _ => s
  | .refused _ => s

/-- What most tests look at: the pc, the status, R0 and R7. -/
def view (s : State) : Nat × Status × Byte × Byte := (s.pc, s.status, s.reg 0, s.reg 7)

/-- V1. -/
theorem test_ldi : view (after (at_ 0 [0x82, 0x00, 0x08] id)) = (3, .running, 8, 0xF4) := by decide
/-- V4. -/
theorem test_ldi_bad_register : after (at_ 0 [0x82, 0x08, 0x05] id)
    = (at_ 0 [0x82, 0x08, 0x05] id).raise (.addressOutOfRange .register 8 0 (some 0x82)) := by decide
/-- V6. -/
theorem test_prn : (after (at_ 0 [0x47, 0x00] (·.setReg 0 255))).out = [255] := by decide
/-- The text of V6, and of 0 (rule R71): three digits, one digit. -/
theorem test_prn_text : decimalDigits 255 = ['2', '5', '5'] ∧ decimalDigits 0 = ['0'] := by decide
/-- V9. -/
theorem test_hlt : view (after (at_ 255 [0x01] id)) = (256, .halted, 0, 0xF4) := by decide
/-- V54: no step from a Halted state. -/
theorem test_hlt_is_final : (match step (after (at_ 255 [0x01] id)) with
    | .fault f => f == .halted | .next _ => false | .refused _ => false) = true := by decide
/-- V11. -/
theorem test_add_wraps : (after (at_ 0 [0xA0, 0, 1] fun s => (s.setReg 0 200).setReg 1 100)).reg 0 = 44 := by decide
/-- V16: op1 is checked first. -/
theorem test_add_reports_first_operand : (after (at_ 0 [0xA0, 9, 8] id)).status
    = .faulted (.addressOutOfRange .register 9 0 (some 0xA0)) := by decide
/-- V19: the same register twice. -/
theorem test_mul_square : (after (at_ 0 [0xA2, 0, 0] (·.setReg 0 255))).reg 0 = 1 := by decide
/-- V17. -/
theorem test_mul : (after (at_ 0 [0xA2, 0, 1] fun s => (s.setReg 0 8).setReg 1 9)).reg 0 = 72 := by decide

/-- `ALU_EXT` set. -/
def withExt (s : State) : State := { s with params := { s.params with aluExt := true } }

/-- V22. -/
theorem test_sub_borrows : (after (at_ 0 [0xA1, 0, 1] fun s => withExt (s.setReg 1 1))).reg 0 = 255 := by decide
/-- V21. -/
theorem test_sub_unknown : (after (at_ 0 [0xA1, 0, 1] id)).status = .faulted (.unknownOpcode 0 0xA1) := by decide
/-- V23. -/
theorem test_div_floors :
    (after (at_ 0 [0xA3, 0, 1] fun s => withExt ((s.setReg 0 7).setReg 1 2))).reg 0 = 3 := by decide
/-- V24. -/
theorem test_div_by_zero : view (after (at_ 0 [0xA3, 0, 1] fun s => withExt (s.setReg 0 7)))
    = (0, .faulted (.divisionByZero 0 0xA3), 7, 0xF4) := by decide
/-- V31: PUSH R7 stores the decremented SP. -/
theorem test_push_sp : (after (at_ 0 [0x45, 7] id)).mem = [(0, 0x45), (1, 7), (0xF3, 0xF3)] := by decide
/-- V32. -/
theorem test_push_below_zero : view (after (at_ 0 [0x45, 0] (·.setReg 7 0)))
    = (0, .faulted (.addressOutOfRange .stack (-1) 0 (some 0x45)), 0, 0) := by decide
/-- V36: POP R7 leaves the byte + 1. -/
theorem test_pop_sp : (after (at_ 0 [0x46, 7] fun s => (s.setReg 7 0x80).store 0x80 0x30)).reg 7 = 0x31 := by decide
/-- V37. -/
theorem test_pop_sp_above : (after (at_ 0 [0x46, 7] fun s => (s.setReg 7 0x80).store 0x80 0xFF)).status
    = .faulted (.addressOutOfRange .stack 256 0 (some 0x46)) := by decide
/-- V38. -/
theorem test_call : (after (at_ 8 [0x50, 1] fun s => (s.setReg 1 17).setReg 7 0xF3))
    = { at_ 8 [0x50, 1] fun s => (s.setReg 1 17).setReg 7 0xF2 with
          mem := [(8, 0x50), (9, 1), (0xF2, 10)], pc := 17 } := by decide
/-- V39a. -/
theorem test_call_at_254 : (after (at_ 254 [0x50, 1] id)).status
    = .faulted (.addressOutOfRange .memory 256 254 (some 0x50)) := by decide
/-- V39b. -/
theorem test_ret : view (after (at_ 0 [0x11] fun s => (s.setReg 7 0xF2).store 0xF2 10))
    = (10, .running, 0, 0xF3) := by decide
/-- V39c. -/
theorem test_ret_empty : (after (at_ 0 [0x11] id)).status
    = .faulted (.addressOutOfRange .stack 0xF4 0 (some 0x11)) := by decide
/-- V40 and V42. -/
theorem test_cmp : (after (at_ 0 [0xA7, 0, 2] fun s => (s.setReg 0 3).setFl 1)).fl = 0 ∧
    (after (at_ 0 [0xA7, 3, 3] id)).fl = 1 := by decide
/-- V48. -/
theorem test_jmp : (after (at_ 25 [0x54, 3] (·.setReg 3 15))).pc = 15 := by decide
/-- V43 and V44. -/
theorem test_jeq : (after (at_ 20 [0x55, 4] fun s => (s.setReg 4 27).setFl 1)).pc = 27 ∧
    (after (at_ 20 [0x55, 4] (·.setReg 4 27))).pc = 22 := by decide
/-- V47: the index is checked even where the jump is not taken. -/
theorem test_jeq_bad_register : (after (at_ 20 [0x55, 9] id)).status
    = .faulted (.addressOutOfRange .register 9 20 (some 0x55)) := by decide
/-- V45 and V46. -/
theorem test_jne : (after (at_ 20 [0x56, 4] (·.setReg 4 27))).pc = 27 ∧
    (after (at_ 20 [0x56, 4] fun s => (s.setReg 4 27).setFl 1)).pc = 22 := by decide
/-- V49: after a fall-through to 256 the next fetch raises, with no opcode. -/
theorem test_fetch_at_256 : (after (after (at_ 254 [0x55, 0] id))).status
    = .faulted (.addressOutOfRange .memory 256 256 none) := by decide
/-- V50: memory all 0. -/
theorem test_empty_memory : (after State.reset).status = .faulted (.unknownOpcode 0 0) := by decide
/-- V51: the second operand byte is outside memory. -/
theorem test_operand_fetch : (after (at_ 254 [0x82, 0] id)).status
    = .faulted (.addressOutOfRange .memory 256 254 (some 0x82)) := by decide

/-! ## Loader, trace and the host's entry points -/

/-- The image line of rule R57's example, a comment line, and lines that are malformed (rule R108). -/
theorem test_classify_line :
    classifyLine ['1', '0', '0', '0', '0', '0', '1', '0', ' ', '#', ' ', 'L'] = .byte 0x82 ∧
    classifyLine [' ', '#', 'x'] = .skip ∧ classifyLine ['1', '0'] = .malformed ∧
    classifyLine ['1', '0', '0', '0', '0', '0', '1', '2'] = .malformed := by decide
theorem test_load_image : (State.reset.loadImage [[], ['0', '0', '0', '0', '0', '0', '0', '1']]).mem = [(0, 1)] ∧
    (State.reset.loadImage [[], ['x']]).exitStatus = some 5 := by decide
/-- Rule R69: a byte above 255 is shown as absent. -/
theorem test_trace : (State.trace { at_ 254 [0x55, 0] id with
      params := { defaultParams with traceEnabled := true } }).map TraceRecord.bytes
    = some [some 0x55, some 0, none] := by decide
/-- Rule R67: `JMP` to its own address never ends, and running out of fuel is no halt. -/
theorem test_out_of_fuel_is_no_halt : runFor 2 (at_ 0 [0x54, 0] id) = none := by decide
theorem test_run_ends : (runFor 1 (at_ 0 [0x01] id)).isSome = true := by decide
/-- A word of the table placed at reset is the first instruction to run, SUB among them. -/
theorem test_with_fetch_word : (after (State.reset.withFetchWord 24 0x0100A1)).pc = 3 ∧
    (after (State.reset.withFetchWord 8 0x01)).status = .halted := by decide

end Sys2Proof.Tests
end

