-- ==== Sys2Proof/Tests/Witnesses0.lean ====
section
/-! SUPPORT. For every obligation with hypotheses, concrete states and operands that meet them together, one
conjunct for each clause, at boundary values. Each is named after its obligation. -/

namespace Sys2Proof.Tests

open Sys2Proof Sys2Proof.Machine

/-- PRN R0 at address 255: its operand byte is outside memory. -/
def sPrn255 : State := at_ 255 [0x47] id
/-- LDI at address 254: its second operand byte is outside memory. -/
def sLdi254 : State := at_ 254 [0x82, 0] id
/-- PUSH R0 with SP = SP_INIT, the highest SP a push accepts. -/
def sPush : State := at_ 0 [0x45, 0] id
/-- POP R7 of the byte 255. -/
def sPop255 : State := at_ 0 [0x46, 7] fun s => (s.setReg 7 0x80).store 0x80 255
/-- DIV R0,R1 with R1 = 0. -/
def sDiv0 : State := at_ 0 [0xA3, 0, 1] withExt
/-- A faulted state. -/
def sFaulted : State := State.reset.raise (.unknownOpcode 0 0)

theorem names_seven : Names 7 7 := rfl

theorem witness_ResetStateHoldsTheSpecValues : (6 : RegIdx) ≠ 7 := by decide

theorem witness_StepKeepsInvariant : sPush.Inv ∧ ∃ t, step sPush = .next t :=
  ⟨⟨by decide, by decide, by decide, by decide⟩, _, rfl⟩

theorem witness_RunKeepsInvariant : sPush.Inv ∧ ∃ t, Host.Core.run Sys2Proof.core 2 sPush = .next t :=
  ⟨⟨by decide, by decide, by decide, by decide⟩, _, rfl⟩

theorem witness_DecodeInvertsEncode : (OpcodeMap.ls8.wf true ∧ (Instr.div 255 0).mnemonic ∈ decodedMnemonics true) ∧
    OpcodeMap.ls8.wf false ∧ (Instr.ldi 7 255).mnemonic ∈ decodedMnemonics false := by decide

theorem witness_EncodeInvertsDecode : decode .ls8 false [0x82, 255, 255, 9] = .ok (.ldi 255 255, [9]) := rfl

theorem witness_LengthFromOpcodeByteAlone :
    (OpcodeMap.ls8.lookup false 0x82 = some .ldi ∧ decode .ls8 false [0x82, 0, 8] = .ok (.ldi 0 8, [])) ∧
    OpcodeMap.ls8.lookup false 0xFF = none ∧
    (let s := at_ 255 [0xFF] id; s.status = .running ∧ s.pc ≤ 255 ∧
      s.params.opcodeMap.lookup s.params.aluExt (s.mem.read s.pc) = none) :=
  ⟨⟨by decide, rfl⟩, by decide, by decide⟩

theorem witness_StepRunsTheDecodedInstruction : sPush.status = .running ∧ InstrAt sPush (.push 0) :=
  ⟨rfl, instrAt_iff_fetchDecode.2 rfl⟩

theorem witness_FetchAboveMemoryRaises :
    (let s := at_ 256 [] id; s.status = .running ∧ 255 < s.pc) ∧
    (let s := sPrn255; s.status = .running ∧ s.pc ≤ 255 ∧
      s.params.opcodeMap.lookup s.params.aluExt (s.mem.read s.pc) = some .prn ∧ 1 ≤ Mnemonic.prn.operandCount ∧
      255 < s.pc + 1) ∧
    (let s := sLdi254; s.status = .running ∧ s.pc ≤ 255 ∧
      s.params.opcodeMap.lookup s.params.aluExt (s.mem.read s.pc) = some .ldi ∧ Mnemonic.ldi.operandCount = 2 ∧
      s.pc + 1 ≤ 255 ∧ 255 < s.pc + 2) := by decide

theorem witness_StoppedBlockHasNoStep : State.reset.halt.status = .halted ∧
    sFaulted.status = .faulted (.unknownOpcode 0 0) ∧ ∃ t, step sPush = .next t := ⟨rfl, rfl, _, rfl⟩

theorem witness_RunningStateHasExactlyOneNextState : State.reset.status = .running := rfl

/-- An advance of each kind: LDI at 253 (to 256), JEQ not taken at 254, JNE not taken. -/
theorem witness_AdvanceByLength :
    (let s := at_ 253 [0x82, 7, 255] id; s.status = .running ∧ ∃ t, exec (.ldi 7 255) s = .next t ∧
      (∀ r, t.status ≠ .faulted r) ∧ ∀ ra, Instr.ldi 7 255 ≠ .call ra ∧ Instr.ldi 7 255 ≠ .jmp ra ∧
        Instr.ldi 7 255 ≠ .jeq ra ∧ Instr.ldi 7 255 ≠ .jne ra) ∧
    (let s := at_ 254 [0x55, 0] id; s.status = .running ∧ s.fl ≠ 1 ∧ ∃ t, exec (.jeq 0) s = .next t ∧
      ∀ r, t.status ≠ .faulted r) ∧
    (let s := at_ 254 [0x56, 0] (·.setFl 1); s.status = .running ∧ s.fl ≠ 0 ∧ ∃ t, exec (.jne 0) s = .next t ∧
      ∀ r, t.status ≠ .faulted r) :=
  ⟨⟨rfl, _, rfl, nofun, fun _ => ⟨nofun, nofun, nofun, nofun⟩⟩, ⟨rfl, by decide, _, rfl, nofun⟩,
    ⟨rfl, by decide, _, rfl, nofun⟩⟩

theorem witness_ErrorChangesOnlyStatus : ∃ t, step State.reset = .next t ∧ t.status = .faulted (.unknownOpcode 0 0) :=
  ⟨_, rfl, rfl⟩

theorem witness_AddressErrorExactlyInTheSevenCases :
    (∃ t, step sPop255 = .next t ∧ t.status = .faulted (.addressOutOfRange .stack 256 0 (some 0x46))) ∧
    (AddressErrorCase sPop255) ∧ ∃ t, step sPush = .next t ∧ t.status = .running :=
  ⟨⟨_, rfl, rfl⟩, .inr (.inr (.inr (.inr (.inr (.inl ⟨7, instrAt_iff_fetchDecode.2 rfl, rfl, rfl⟩))))), _, rfl, rfl⟩

theorem witness_OtherErrorsExactlyWhereNamed :
    (∃ t, step State.reset = .next t ∧ t.status = .faulted (.unknownOpcode 0 0)) ∧
    (∃ t, step sDiv0 = .next t ∧ t.status = .faulted (.divisionByZero 0 0xA3)) := ⟨⟨_, rfl, rfl⟩, _, rfl, rfl⟩

theorem witness_OnlyHltHalts : ∃ t, step (at_ 255 [0x01] id) = .next t ∧ t.status = .halted := ⟨_, rfl, rfl⟩

theorem witness_ExitStatusTellsHowTheRunEnded : sFaulted.status = .faulted (.unknownOpcode 0 0) ∧
    ErrorKind.unknownOpcode.exitCode = ErrorKind.unknownOpcode.exitCode := ⟨rfl, rfl⟩

theorem witness_OnlyCmpWritesAndOnlyJeqJneReadFlags :
    (∃ t, step (at_ 0 [0xA7, 0, 0] id) = .next t ∧ t.fl ≠ (at_ 0 [0xA7, 0, 0] id).fl) ∧
    (∃ t u, exec (.ldi 0 1) sPush = .next t ∧ exec (.ldi 0 1) { sPush with fl := 1 } = .next u) ∧
    (Names 7 7 ∧ Names 0 0 ∧
      ∃ t u, exec (.cmp 7 0) sPush = .next t ∧ exec (.cmp 7 0) { sPush with fl := 1 } = .next u) ∧
    (∃ t u, exec (.jeq 0) sPush = .next t ∧ exec (.jeq 0) { sPush with fl := 1 } = .next u) :=
  ⟨⟨_, rfl, by decide⟩, ⟨_, _, rfl, rfl⟩, ⟨rfl, rfl, _, _, rfl, rfl⟩, _, _, rfl, rfl⟩

theorem witness_OnlyPushAndCallStoreInTheStackRegion :
    let s := at_ 0 [0x45, 0] (·.setReg 0 5)
    s.Inv ∧ ∃ t, step s = .next t ∧ t.mem.read 0xF3 ≠ s.mem.read 0xF3 :=
  ⟨⟨by decide, by decide, by decide, by decide⟩, _, rfl, by decide⟩

theorem witness_OnlyPopAndRetReadMemoryAtSp :
    (∃ t u, exec (.ldi 0 1) sPush = .next t ∧ exec (.ldi 0 1) { sPush with mem := [] } = .next u) ∧
    (Memory.read [(0x80, 255)] sPop255.sp.toNat = sPop255.mem.read sPop255.sp.toNat ∧
      ∃ t u, exec (.pop 0) sPop255 = .next t ∧ exec (.pop 0) { sPop255 with mem := [(0x80, 255)] } = .next u) ∧
    (sPush.mem.wf ∧ Memory.wf [(0xF3, 9)] ∧ (7 : Byte).toNat ≤ 7 ∧ sPush.pushOk = true ∧
      (∃ t u, exec (.push 7) sPush = .next t ∧ exec (.push 7) { sPush with mem := [(0xF3, 9)] } = .next u) ∧
      let s := { sPush with pc := 253 }
      s.pc + 2 ≤ 255 ∧ s.pushOk = true ∧
        ∃ t u, exec (.call 7) s = .next t ∧ exec (.call 7) { s with mem := [(0xF3, 9)] } = .next u) :=
  ⟨⟨_, _, rfl, rfl⟩, ⟨by decide, _, _, rfl, rfl⟩, by decide, by decide, by decide, by decide, ⟨_, _, rfl, rfl⟩,
    by decide, by decide, _, _, rfl, rfl⟩

theorem witness_OutputGrowsOnlyByPrnAndIsNeverRead : ∃ t, step (at_ 0 [0x47, 7] id) = .next t ∧ t.out ≠ [] :=
  ⟨_, rfl, by decide⟩

theorem witness_TraceHookChangesNoStep : ∃ t, step sPush = .next t := ⟨_, rfl⟩

theorem witness_StepKeepsParameters : ∃ t, step sPush = .next t := ⟨_, rfl⟩

/-- PUSH R0 of the byte 0xFF at SP = 3, the pc reaching the stored address 2. -/
theorem witness_StoreIsSeenByTheNextFetch :
    let s := at_ 0 [0x45, 0] fun s => (s.setReg 0 0xFF).setReg 7 3
    s.Inv ∧ s.status = .running ∧ Names 0 0 ∧ (0 : RegIdx) ≠ 7 ∧ s.pushOk = true ∧
      (∃ t, exec (.push 0) s = .next t ∧ t.pc + 1 = s.sp.toNat) ∧
      s.params.opcodeMap.lookup s.params.aluExt (s.reg 0) = none :=
  ⟨⟨by decide, by decide, by decide, by decide⟩, rfl, rfl, by decide, by decide, ⟨_, rfl, by decide⟩, by decide⟩

theorem witness_LdiLoadsTheImmediate : 7 < (8 : Byte).toNat ∧ Names 7 7 := ⟨by decide, rfl⟩
theorem witness_PrnAppendsTheRegister : 7 < (8 : Byte).toNat ∧ Names 7 7 := ⟨by decide, rfl⟩

theorem witness_AddAddsModulo256 : 7 < (8 : Byte).toNat ∧ ((7 : Byte).toNat ≤ 7 ∧ 7 < (8 : Byte).toNat) ∧
    Names 7 7 ∧ Names 0 0 := ⟨by decide, by decide, rfl, rfl⟩
theorem witness_MulMultipliesModulo256 : 7 < (8 : Byte).toNat ∧ ((7 : Byte).toNat ≤ 7 ∧ 7 < (8 : Byte).toNat) ∧
    Names 7 7 ∧ Names 7 7 := ⟨by decide, by decide, rfl, rfl⟩

theorem witness_SubSubtractsModulo256 : 7 < (8 : Byte).toNat ∧ ((7 : Byte).toNat ≤ 7 ∧ 7 < (8 : Byte).toNat) ∧
    (Names 7 7 ∧ Names 0 0) ∧
    (let s := at_ 255 [0xA1] id; s.status = .running ∧ s.pc ≤ 255 ∧ s.mem.read s.pc = 0xA1 ∧
      s.params.opcodeMap = .ls8 ∧ s.params.aluExt = false) := ⟨by decide, by decide, ⟨rfl, rfl⟩, by decide⟩

theorem witness_DivDividesOrRaisesDivisionByZero :
    7 < (8 : Byte).toNat ∧ ((7 : Byte).toNat ≤ 7 ∧ 7 < (8 : Byte).toNat) ∧
    (Names 0 0 ∧ Names 1 1 ∧ sDiv0.reg 1 = 0) ∧ (Names 0 0 ∧ Names 7 7 ∧ sDiv0.reg 7 ≠ 0) ∧
    (let s := at_ 255 [0xA3] id; s.status = .running ∧ s.pc ≤ 255 ∧ s.mem.read s.pc = 0xA3 ∧
      s.params.opcodeMap = .ls8 ∧ s.params.aluExt = false) :=
  ⟨by decide, by decide, ⟨rfl, rfl, by decide⟩, ⟨rfl, rfl, by decide⟩, by decide⟩

theorem witness_AluRefusesOtherOperations : Names 7 7 ∧ Names 0 0 ∧ Mnemonic.cmp ≠ .add ∧ Mnemonic.cmp ≠ .sub ∧
    Mnemonic.cmp ≠ .mul ∧ Mnemonic.cmp ≠ .div := ⟨rfl, rfl, by decide, by decide, by decide, by decide⟩

/-- SP at 0 and at SP_INIT + 1, which raise; at 1 and at SP_INIT, which store. -/
theorem witness_PushStoresBelowSp : 7 < (8 : Byte).toNat ∧ (7 : Byte).toNat ≤ 7 ∧
    (at_ 0 [0x45, 0] (·.setReg 7 0)).sp.toNat = 0 ∧
    (let s := at_ 0 [0x45, 0] (·.setReg 7 0xF5); s.params.spInit.toNat < s.sp.toNat) ∧
    Names 7 7 ∧
    (let s := at_ 0 [0x45, 7] (·.setReg 7 1); s.mem.wf ∧ 1 ≤ s.sp.toNat ∧ s.sp.toNat ≤ s.params.spInit.toNat) ∧
    (sPush.mem.wf ∧ 1 ≤ sPush.sp.toNat ∧ sPush.sp.toNat ≤ sPush.params.spInit.toNat) :=
  ⟨by decide, by decide, by decide, by decide, rfl, by decide, by decide⟩

/-- SP at SP_INIT, which raises; at SP_INIT - 1; POP R7 of the byte 255, which raises, and of another. -/
theorem witness_PopLoadsFromSp : 7 < (8 : Byte).toNat ∧
    ((7 : Byte).toNat ≤ 7 ∧ sPush.params.spInit.toNat ≤ sPush.sp.toNat) ∧
    (Names 7 7 ∧ sPop255.sp.toNat < sPop255.params.spInit.toNat ∧ sPop255.mem.read sPop255.sp.toNat = 255) ∧
    (let s := at_ 0 [0x46, 6] (·.setReg 7 0xF3); Names 6 6 ∧ (6 : RegIdx) ≠ 7 ∧
      s.sp.toNat < s.params.spInit.toNat ∧ s.mem.read s.sp.toNat ≠ 255) :=
  ⟨by decide, by decide, ⟨rfl, by decide, by decide⟩, rfl, by decide, by decide, by decide⟩

/-- CALL at 254, which raises, and at 253; SP at 0, SP_INIT + 1 and SP_INIT. -/
theorem witness_CallStoresReturnAddressAndJumps : 7 < (8 : Byte).toNat ∧ (7 : Byte).toNat ≤ 7 ∧
    (at_ 0 [0x50, 0] (·.setReg 7 0)).sp.toNat = 0 ∧
    (let s := at_ 0 [0x50, 0] (·.setReg 7 0xF5); s.params.spInit.toNat < s.sp.toNat) ∧
    (let s := at_ 254 [0x50, 7] id; 1 ≤ s.sp.toNat ∧ s.sp.toNat ≤ s.params.spInit.toNat ∧ 255 < s.pc + 2) ∧
    Names 7 7 ∧
    (let s := at_ 253 [0x50, 7] id; s.mem.wf ∧ 1 ≤ s.sp.toNat ∧ s.sp.toNat ≤ s.params.spInit.toNat ∧
      s.pc + 2 ≤ 255) := ⟨by decide, by decide, by decide, by decide, by decide, rfl, by decide⟩

theorem witness_RetJumpsToThePoppedByte : sPush.params.spInit.toNat ≤ sPush.sp.toNat ∧
    sPop255.sp.toNat < sPop255.params.spInit.toNat ∧ Names 0 0 ∧ (0 : RegIdx) ≠ 7 ∧ sPush.mem.wf ∧
    1 ≤ sPush.sp.toNat ∧ sPush.sp.toNat ≤ sPush.params.spInit.toNat :=
  ⟨by decide, by decide, rfl, by decide, by decide, by decide, by decide⟩

theorem witness_PushThenPopRestoresTheRegisters : (7 : Byte).toNat ≤ 7 ∧ sPush.mem.wf ∧ 1 ≤ sPush.sp.toNat ∧
    sPush.sp.toNat ≤ sPush.params.spInit.toNat := by decide

theorem witness_CallThenRetResumesAfterTheCall :
    let s := at_ 253 [0x50, 0] id
    (0 : Byte).toNat ≤ 7 ∧ s.mem.wf ∧ s.status = .running ∧ 1 ≤ s.sp.toNat ∧
      s.sp.toNat ≤ s.params.spInit.toNat ∧ s.pc + 2 ≤ 255 ∧
      ∃ t, exec (.call 0) s = .next t ∧ ∃ v : State, v.sp = t.sp ∧
        v.mem.read t.sp.toNat = t.mem.read t.sp.toNat ∧ v.params = t.params :=
  ⟨by decide, by decide, rfl, by decide, by decide, by decide, _, rfl, _, rfl, rfl, rfl⟩

theorem witness_CmpSetsTheEqualityFlag : 7 < (8 : Byte).toNat ∧ ((7 : Byte).toNat ≤ 7 ∧ 7 < (8 : Byte).toNat) ∧
    (Names 0 0 ∧ Names 1 1 ∧ sPush.reg 0 = sPush.reg 1) ∧ (Names 0 0 ∧ Names 7 7 ∧ sPush.reg 0 ≠ sPush.reg 7) ∧
    ∃ t, exec (.cmp 0 0) sPush = .next t ∧ t.fl ≠ sPush.fl :=
  ⟨by decide, by decide, ⟨rfl, rfl, by decide⟩, ⟨rfl, rfl, by decide⟩, _, rfl, by decide⟩

theorem witness_JmpJumpsToTheRegister : 7 < (8 : Byte).toNat ∧ Names 7 7 ∧ (sPush.reg 0).toNat = sPush.pc :=
  ⟨by decide, rfl, by decide⟩

theorem witness_JeqJumpsWhenFlagIsOne : 7 < (8 : Byte).toNat ∧ Names 7 7 ∧
    ((at_ 0 [] (·.setFl 1)).fl = 1 ∧ State.reset.fl ≠ 1) ∧
    (let s := at_ 254 [0x55, 7] id; s.status = .running ∧ s.pc = 254 ∧ s.fl ≠ 1 ∧
      ∃ t, exec (.jeq 7) s = .next t) := ⟨by decide, rfl, by decide, rfl, rfl, by decide, _, rfl⟩

theorem witness_JneJumpsWhenFlagIsZero : 7 < (8 : Byte).toNat ∧ Names 7 7 ∧
    (State.reset.fl = 0 ∧ (at_ 0 [] (·.setFl 1)).fl ≠ 0) ∧
    (∃ t u, exec (.jeq 7) State.reset = .next t ∧ exec (.jne 7) State.reset = .next u) :=
  ⟨by decide, rfl, by decide, _, _, rfl, rfl⟩

/-- A completion and an error of a register writer. -/
theorem witness_FrameOfRegisterWriters : (∃ t, exec (.add 7 0) sPush = .next t) ∧ ¬ Names 7 6 ∧
    ∃ t, exec (.div 0 1) sDiv0 = .next t := ⟨⟨_, rfl⟩, by unfold Names; decide, _, rfl⟩

theorem witness_FrameOfStores : sPush.mem.wf ∧ (∃ t, exec (.push 0) sPush = .next t) ∧
    (∃ t, exec (.call 0) sPush = .next t) ∧ (at_ 0 [0x45, 0] (·.setReg 7 0)).pushOk = false :=
  ⟨by decide, ⟨_, rfl⟩, ⟨_, rfl⟩, by decide⟩

theorem witness_FrameOfStackReads : (∃ t, exec (.pop 0) sPop255 = .next t) ∧ ¬ Names 0 1 ∧
    ∃ t, exec .ret sPop255 = .next t := ⟨⟨_, rfl⟩, by unfold Names; decide, _, rfl⟩

theorem witness_FrameOfTheOthers : (∃ t, exec (.prn 0) sPush = .next t) ∧ (∃ t, exec .hlt sPush = .next t) ∧
    (∃ t, exec (.cmp 0 7) sPush = .next t) ∧ (∃ t, exec (.jmp 8) sPush = .next t) ∧
    (∃ t, exec (.jeq 0) sPush = .next t) ∧ ∃ t, exec (.jne 0) sPush = .next t :=
  ⟨⟨_, rfl⟩, ⟨_, rfl⟩, ⟨_, rfl⟩, ⟨_, rfl⟩, ⟨_, rfl⟩, _, rfl⟩

theorem witness_MemoryWriteChangesExactlyOneCell : sPush.mem.wf ∧ 255 ≤ 255 := by decide

theorem witness_MemoriesThatReadAlikeAreEqual : Memory.wf [(0, 1), (255, 2)] ∧
    ∀ a, a ≤ 255 → Memory.read [(0, 1), (255, 2)] a = Memory.read [(0, 1), (255, 2)] a := ⟨by decide, fun _ _ => rfl⟩

theorem witness_LoadWritesTheImageFromAddressZero : State.reset.Inv ∧
    (List.replicate 256 (0xFF : Byte)).length ≤ 256 ∧ 256 < (List.replicate 257 (0xFF : Byte)).length :=
  ⟨⟨by decide, by decide, by decide, by decide⟩, by rw [List.length_replicate], by rw [List.length_replicate]; decide⟩

/-- The line of HLT's byte, `00000001`. -/
def hltLine : List Char := ['0', '0', '0', '0', '0', '0', '0', '1']

theorem witness_OffendingLineIsReportedAndNoStepRuns :
    ((∀ l ∈ [hltLine, []], classifyLine l ≠ .malformed) ∧
      ([hltLine, []].filter fun l => classifyLine l != .skip).length ≤ 256 ∧ classifyLine ['x'] = .malformed) ∧
    ((∀ l ∈ List.replicate 256 hltLine, classifyLine l ≠ .malformed) ∧
      ((List.replicate 256 hltLine).filter fun l => classifyLine l != .skip).length = 256 ∧
      classifyLine hltLine ≠ .skip) := by
  refine ⟨by decide, fun l hl => ?_, ?_, by decide⟩
  · rw [List.eq_of_mem_replicate hl]
    decide
  · rw [List.filter_replicate_of_pos (by decide), List.length_replicate]

theorem witness_MoreFuelGivesTheSameObservation : ∃ o, runFor 1 (at_ 0 [0x01] id) = some o := ⟨_, rfl⟩

end Sys2Proof.Tests
end

section
/-! SUPPORT. FL and the instructions (`10_state.md` rule R26): who writes it, and what depends on it. -/

namespace Sys2Proof.Machine

/-! ## Who writes FL -/

/-- An instruction other than CMP keeps FL, an error taken included. -/
theorem exec_fl_eq {i : Instr} {s t : State} (h : exec i s = .next t) (hi : ∀ ra rb, i ≠ .cmp ra rb) :
    t.fl = s.fl := by
  rcases exec_inv h with he | ⟨r, -, rfl⟩
  · rcases he.fl_eq with ⟨ra, rb, hcmp⟩ | hfl
    · exact absurd hcmp (hi ra rb)
    · exact hfl
  · rfl

/-- A step that changes FL executed a CMP: a fetch error keeps FL. -/
theorem step_fl_ne {s t : State} (h : step s = .next t) (hfl : t.fl ≠ s.fl) :
    ∃ ra rb, InstrAt s (.cmp ra rb) := by
  obtain ⟨-, ⟨r, -, rfl⟩ | ⟨i, hf, he⟩⟩ := step_cases h
  · exact absurd rfl hfl
  · by_contra hn
    refine hfl (exec_fl_eq he fun ra rb hi => hn ⟨ra, rb, ?_⟩)
    exact instrAt_iff_fetchDecode.2 (hi ▸ hf)

/-! ## What does not read FL -/

/-- Two answers are next states that differ at most in FL. -/
def SameButFl (r r' : Result) : Prop := ∃ t g, r = .next t ∧ r' = .next (t.setFl g)

/-- Branching on one condition keeps two answers alike. -/
theorem SameButFl.ite {c : Prop} [Decidable c] {r r' q q' : Result} (hr : SameButFl r r') (hq : SameButFl q q') :
    SameButFl (if c then r else q) (if c then r' else q') := by
  split
  · exact hr
  · exact hq

/-- The check of a register index does not read FL. -/
theorem State.withReg_sameButFl (s : State) (f : Byte) (k : Mnemonic) (b : Byte) {body body' : RegIdx → Result}
    (h : ∀ r, SameButFl (body r) (body' r)) :
    SameButFl (s.withReg k b body) ((s.setFl f).withReg k b body') := by
  rcases names_or_bad b with ⟨r, hr⟩ | hb
  · rw [s.withReg_names k hr, (s.setFl f).withReg_names k hr]
    exact h r
  · rw [s.withReg_bad k hb, (s.setFl f).withReg_bad k hb]
    exact ⟨_, f, rfl, rfl⟩

/-- The bounds check of a push does not read FL. -/
theorem State.withPush_sameButFl (s : State) (f : Byte) (k : Mnemonic) {body body' : Result}
    (h : SameButFl body body') : SameButFl (s.withPush k body) ((s.setFl f).withPush k body') := by
  cases hp : s.pushOk with
  | true =>
    rw [s.withPush_ok k body hp, (s.setFl f).withPush_ok k body' hp]
    exact h
  | false =>
    rw [s.withPush_bad k body hp, (s.setFl f).withPush_bad k body' hp]
    exact ⟨_, f, rfl, rfl⟩

/-- The bounds check of a pop, and its load, do not read FL. -/
theorem State.withPop_sameButFl (s : State) (f : Byte) (k : Mnemonic) {body body' : Byte → Result}
    (h : ∀ v, SameButFl (body v) (body' v)) : SameButFl (s.withPop k body) ((s.setFl f).withPop k body') := by
  cases hp : s.popOk with
  | true =>
    rw [s.withPop_ok k body hp, (s.setFl f).withPop_ok k body' hp]
    exact h _
  | false =>
    rw [s.withPop_bad k body hp, (s.setFl f).withPop_bad k body' hp]
    exact ⟨_, f, rfl, rfl⟩

/-- The ALU does not read FL: its answer depends on the operand registers alone. -/
theorem State.alu_sameButFl (s : State) (f : Byte) (op : Mnemonic) (ra rb : Byte) :
    SameButFl (s.alu op ra rb) ((s.setFl f).alu op ra rb) := by
  refine s.withReg_sameButFl f op ra fun a => s.withReg_sameButFl f op rb fun b => ?_
  simp only [State.setFl_reg]
  cases aluApply op (s.reg a) (s.reg b) with
  | value v => exact ⟨_, f, rfl, rfl⟩
  | divisionByZero => exact ⟨_, f, rfl, rfl⟩
  | unsupported => exact ⟨_, f, rfl, rfl⟩

/-- Of all instructions only JEQ and JNE read FL: executed on another FL, the others differ at most in FL. -/
theorem exec_sameButFl {i : Instr} (hi : ∀ ra, i ≠ .jeq ra ∧ i ≠ .jne ra) (s : State) (f : Byte) :
    SameButFl (exec i s) (exec i (s.setFl f)) := by
  cases i with
  | ldi ra imm => exact s.withReg_sameButFl f _ _ fun a => ⟨_, f, rfl, rfl⟩
  | prn ra => exact s.withReg_sameButFl f _ _ fun a => ⟨_, f, rfl, rfl⟩
  | hlt => exact ⟨_, f, rfl, rfl⟩
  | add ra rb => exact s.alu_sameButFl f _ _ _
  | mul ra rb => exact s.alu_sameButFl f _ _ _
  | sub ra rb => exact s.alu_sameButFl f _ _ _
  | div ra rb => exact s.alu_sameButFl f _ _ _
  | push ra => exact s.withReg_sameButFl f _ _ fun a => s.withPush_sameButFl f _ ⟨_, f, rfl, rfl⟩
  | pop ra =>
    exact s.withReg_sameButFl f _ _ fun a => s.withPop_sameButFl f _ fun v =>
      .ite ⟨_, f, rfl, rfl⟩ ⟨_, f, rfl, rfl⟩
  | call ra =>
    exact s.withReg_sameButFl f _ _ fun a => s.withPush_sameButFl f _ <|
      .ite ⟨_, f, rfl, rfl⟩ ⟨_, f, rfl, rfl⟩
  | ret => exact s.withPop_sameButFl f _ fun v => ⟨_, f, rfl, rfl⟩
  | cmp ra rb =>
    exact s.withReg_sameButFl f _ _ fun a => s.withReg_sameButFl f _ _ fun b =>
      ⟨_, compareFlag (s.reg a) (s.reg b), rfl, rfl⟩
  | jmp ra => exact s.withReg_sameButFl f _ _ fun a => ⟨_, f, rfl, rfl⟩
  | jeq ra => exact absurd rfl (hi ra).1
  | jne ra => exact absurd rfl (hi ra).2

/-- The next states of two such executions. -/
theorem exec_setFl_next {i : Instr} (hi : ∀ ra, i ≠ .jeq ra ∧ i ≠ .jne ra) {s t u : State} {f : Byte}
    (ht : exec i s = .next t) (hu : exec i (s.setFl f) = .next u) : ∃ g, u = t.setFl g := by
  obtain ⟨t', g, h, h'⟩ := exec_sameButFl hi s f
  rw [ht] at h
  rw [hu] at h'
  cases h
  cases h'
  exact ⟨g, rfl⟩

/-- CMP with legal indices sets FL from the two registers, whatever FL was. -/
theorem exec_cmp_names {ra rb : Byte} {a b : RegIdx} (ha : Names ra a) (hb : Names rb b) (s : State) :
    exec (.cmp ra rb) s = .next ((s.setFl (compareFlag (s.reg a) (s.reg b))).advance 2) :=
  (s.withReg_names _ ha _).trans (s.withReg_names _ hb _)

/-- CMP with legal indices does not read the old FL. -/
theorem exec_cmp_setFl {ra rb : Byte} {a b : RegIdx} (ha : Names ra a) (hb : Names rb b) (s : State) (f : Byte) :
    exec (.cmp ra rb) (s.setFl f) = exec (.cmp ra rb) s := by
  rw [exec_cmp_names ha hb, exec_cmp_names ha hb]
  rfl

/-! ## FL reaches no register, memory cell or output -/

/-- JEQ and JNE, the readers of FL, keep the registers, memory and the output, an error taken included. -/
theorem exec_jeq_jne_frame {i : Instr} {ra : Byte} (hi : i = .jeq ra ∨ i = .jne ra) {s t : State}
    (h : exec i s = .next t) : t.x = s.x ∧ t.mem = s.mem ∧ t.out = s.out := by
  rcases exec_inv h with he | ⟨r, -, rfl⟩
  · rcases hi with rfl | rfl
    · cases he
      simp [apply_ite State.x, apply_ite State.mem, apply_ite State.out]
    · cases he
      simp [apply_ite State.x, apply_ite State.mem, apply_ite State.out]
  · exact ⟨rfl, rfl, rfl⟩

/-- For every instruction, the registers, memory and the output after it do not depend on FL. -/
theorem exec_setFl_data_eq {i : Instr} {s t u : State} {f : Byte} (ht : exec i s = .next t)
    (hu : exec i (s.setFl f) = .next u) : u.x = t.x ∧ u.mem = t.mem ∧ u.out = t.out := by
  by_cases hi : ∃ ra, i = .jeq ra ∨ i = .jne ra
  · obtain ⟨ra, hi⟩ := hi
    obtain ⟨htx, htm, hto⟩ := exec_jeq_jne_frame hi ht
    obtain ⟨hux, hum, huo⟩ := exec_jeq_jne_frame hi hu
    exact ⟨hux.trans htx.symm, hum.trans htm.symm, huo.trans hto.symm⟩
  · obtain ⟨g, rfl⟩ := exec_setFl_next (by simpa using hi) ht hu
    exact ⟨rfl, rfl, rfl⟩

/-- Settles O20: only CMP's effect writes FL; every instruction but JEQ and JNE runs alike on another FL, by a case
split over the instructions with one lemma per shared operation; JEQ and JNE write the pc alone. -/
theorem onlyCmpWritesAndOnlyJeqJneReadFlags : Obligations.OnlyCmpWritesAndOnlyJeqJneReadFlags := by
  refine ⟨fun s t h hfl => step_fl_ne h hfl, fun i s t h hi => exec_fl_eq h hi, ?_, ?_, ?_⟩
  · intro i s t u f hi ht hu
    obtain ⟨g, rfl⟩ := exec_setFl_next hi ht hu
    rfl
  · intro ra rb a b s t u f ha hb ht hu
    have heq : exec (.cmp ra rb) s = .next u := (exec_cmp_setFl ha hb s f).symm.trans hu
    rw [ht] at heq
    cases heq
    rfl
  · exact fun i s t u f ht hu => exec_setFl_data_eq ht hu

end Sys2Proof.Machine
end

section
/-! SUPPORT. The loop (`40_loop.md` rules R65 and R68): which states have a step, and that it is one. -/

namespace Sys2Proof.Machine

/-- Every instruction answers a next state, an error taken included: none ends in a fault or a refusal. -/
theorem exec_exists_next (i : Instr) (s : State) : ∃ t, exec i s = .next t := by
  rcases exec_cases i s with ⟨t, hexec, -⟩ | ⟨r, hexec, -⟩
  · exact ⟨t, hexec⟩
  · exact ⟨s.raise r, hexec⟩

/-- A step out of a Running state answers a next state: a fetch error is taken, a fetched instruction executes. -/
theorem step_exists_next {s : State} (h : s.status = .running) : ∃ t, step s = .next t := by
  rw [step_running h]
  cases s.fetchDecode with
  | error r => exact ⟨s.raise r, rfl⟩
  | ok i => exact exec_exists_next i s

/-- A step that answers a next state started from Running. -/
theorem running_of_step_next {s t : State} (h : step s = .next t) : s.status = .running :=
  (step_cases h).1

/-- A status other than Running has no step. -/
theorem step_ne_next {s : State} (hs : s.status ≠ .running) (t : State) : step s ≠ .next t :=
  fun h => hs (running_of_step_next h)

/-- Settles O13: fetch either raises or finds an instruction, and either way there is a next state; step is a
function, so it is the only one. -/
theorem runningStateHasExactlyOneNextState : Obligations.RunningStateHasExactlyOneNextState := by
  intro s hs
  obtain ⟨t, ht⟩ := step_exists_next hs
  refine ⟨t, ht, fun u hu => ?_⟩
  exact Host.Outcome.next.inj (hu.symm.trans ht)

/-- Settles O12: a step that answers a next state started from Running, and neither Halted nor Faulted is
Running. -/
theorem stoppedBlockHasNoStep : Obligations.StoppedBlockHasNoStep := by
  refine ⟨fun s t hs => step_ne_next ?_ t, fun s t r hs => step_ne_next ?_ t, fun s t => running_of_step_next⟩
  · simp [hs]
  · simp [hs]

end Sys2Proof.Machine
end

section
/-! SUPPORT. An execution and a step from outside: the execution of each effect, what every execution keeps, and
the three things a step can do. -/

namespace Sys2Proof.Machine

/-! ## From an effect to its execution -/

/-- An ALU instruction whose operation answers a value. -/
theorem State.alu_value {s : State} {op : Mnemonic} {ra rb v : Byte} {a b : RegIdx} (ha : Names ra a)
    (hb : Names rb b) (hv : aluApply op (s.reg a) (s.reg b) = .value v) :
    s.alu op ra rb = .next ((s.setReg a v).advance 2) := by
  rw [s.alu_names op ha hb, hv]

/-- RET is its bounds check and the jump to the byte at SP (rule R86). -/
theorem exec_ret (s : State) : exec .ret s = s.withPop .ret fun v => .next (s.incSp.jumpTo v) := rfl

/-- The converse of `exec_inv`: an effect is what the execution answers. -/
theorem exec_of_effect {i : Instr} {s t : State} (h : Effect i s t) : exec i s = .next t := by
  cases h with
  | ldi ha => exact s.withReg_names _ ha _
  | prn ha => exact s.withReg_names _ ha _
  | hlt => rfl
  | add ha hb hv => exact State.alu_value ha hb hv
  | mul ha hb hv => exact State.alu_value ha hb hv
  | sub ha hb hv => exact State.alu_value ha hb hv
  | div ha hb hv => exact State.alu_value ha hb hv
  | push ha hp => exact (s.withReg_names _ ha _).trans (s.withPush_ok _ _ hp)
  | pop ha hp hv => exact ((s.withReg_names _ ha _).trans (s.withPop_ok _ _ hp)).trans (if_neg hv)
  | call ha hp hpc => exact ((s.withReg_names _ ha _).trans (s.withPush_ok _ _ hp)).trans (if_neg hpc)
  | ret hp => exact (exec_ret s).trans (s.withPop_ok _ _ hp)
  | cmp ha hb => exact exec_cmp_names ha hb s
  | jmp ha => exact s.withReg_names _ ha _
  | jeq ha => exact s.withReg_names _ ha _
  | jne ha => exact s.withReg_names _ ha _

/-- An effect is the only next state. -/
theorem Effect.eq_of_exec {i : Instr} {s t u : State} (h : Effect i s t) (hu : exec i s = .next u) : u = t := by
  rw [exec_of_effect h] at hu
  cases hu
  rfl

/-- DIV with legal indices and divisor 0 raises DivisionByZero (rule R80). -/
theorem exec_div_zero {s : State} {ra rb : Byte} {a b : RegIdx} (ha : Names ra a) (hb : Names rb b)
    (h0 : s.reg b = 0) :
    exec (.div ra rb) s = .next (s.raise (.divisionByZero s.pc (s.opcodeOf .div))) := by
  have hz : aluApply .div (s.reg a) (s.reg b) = .divisionByZero := by simp [aluApply, h0]
  show s.alu .div ra rb = _
  rw [s.alu_names _ ha hb, hz]

/-- An operand byte of at most 7 names a register. -/
theorem exists_names {b : Byte} (h : b.toNat ≤ 7) : ∃ r, Names b r :=
  (names_or_bad b).resolve_right (by omega)

/-- An operand byte names at most one register. -/
theorem Names.unique {b : Byte} {q r : RegIdx} (hq : Names b q) (hr : Names b r) : q = r :=
  Fin.ext (hq.symm.trans hr)

/-! ## What every execution keeps, an error taken included -/

theorem exec_params_eq {i : Instr} {s t : State} (h : exec i s = .next t) : t.params = s.params := by
  rcases exec_inv h with he | ⟨r, -, rfl⟩
  · exact he.params_eq
  · rfl

/-- Only HLT ends a run without an error. -/
theorem exec_status {i : Instr} {s t : State} (h : exec i s = .next t) (hi : i ≠ .hlt) :
    StatusKeptOrFaulted s t := by
  rcases exec_inv h with he | ⟨r, -, rfl⟩
  · exact .inl (he.status_eq.resolve_left fun hh => hi hh.1).2
  · exact .inr ⟨r, rfl⟩

/-- Only PUSH and CALL within the stack's bounds write memory: one byte, below SP. -/
theorem exec_mem_cases {i : Instr} {s t : State} (h : exec i s = .next t) :
    t.mem = s.mem ∨ ∃ v, s.pushOk = true ∧ (∃ ra, i = .push ra ∨ i = .call ra) ∧
      t.mem = s.mem.write s.pushAddr.toNat v := by
  rcases exec_inv h with he | ⟨r, -, rfl⟩
  · exact he.mem_eq
  · exact .inl rfl

/-- An instruction other than PUSH and CALL keeps memory. -/
theorem exec_mem_eq {i : Instr} {s t : State} (h : exec i s = .next t)
    (hi : ∀ ra, i ≠ .push ra ∧ i ≠ .call ra) : t.mem = s.mem := by
  rcases exec_mem_cases h with he | ⟨_, _, ⟨ra, rfl | rfl⟩, _⟩
  · exact he
  · exact absurd rfl (hi ra).1
  · exact absurd rfl (hi ra).2

/-- An effect writes `out` only for PRN: the value of its register, at the end (rule R71). -/
theorem Effect.out_cases {i : Instr} {s t : State} (h : Effect i s t) :
    (∃ ra a, i = .prn ra ∧ Names ra a ∧ t.out = s.out ++ [s.reg a]) ∨ t.out = s.out := by
  cases h with
  | prn ha => exact .inl ⟨_, _, rfl, ha, rfl⟩
  | jeq => right; simp [apply_ite State.out]
  | jne => right; simp [apply_ite State.out]
  | _ => right; rfl

theorem exec_out_cases {i : Instr} {s t : State} (h : exec i s = .next t) :
    (∃ ra a, i = .prn ra ∧ Names ra a ∧ t.out = s.out ++ [s.reg a]) ∨ t.out = s.out := by
  rcases exec_inv h with he | ⟨r, -, rfl⟩
  · exact he.out_cases
  · exact .inr rfl

/-- An instruction other than PRN keeps `out`. -/
theorem exec_out_eq {i : Instr} {s t : State} (h : exec i s = .next t) (hi : ∀ ra, i ≠ .prn ra) :
    t.out = s.out := by
  rcases exec_out_cases h with ⟨ra, a, rfl, -, -⟩ | ho
  · exact absurd rfl (hi ra)
  · exact ho

/-- The registers an instruction can write: the one its first operand names, or SP (`10_state.md` rules R15 to
R18). -/
def Writes : Instr → RegIdx → Prop
  | .ldi ra _, r | .add ra _, r | .mul ra _, r | .sub ra _, r | .div ra _, r => Names ra r
  | .push _, r | .call _, r | .ret, r => r = spIndex
  | .pop ra, r => Names ra r ∨ r = spIndex
  | .prn _, _ | .hlt, _ | .cmp _ _, _ | .jmp _, _ | .jeq _, _ | .jne _, _ => False

theorem Effect.reg_eq {i : Instr} {s t : State} (h : Effect i s t) {r : RegIdx} (hr : ¬ Writes i r) :
    t.reg r = s.reg r := by
  have named : ∀ {b a}, Names b a → ¬ Names b r → r ≠ a := by rintro b a ha hn rfl; exact hn ha
  cases h with
  | ldi ha => exact s.reg_setReg_ne _ (named ha hr)
  | add ha => exact s.reg_setReg_ne _ (named ha hr)
  | mul ha => exact s.reg_setReg_ne _ (named ha hr)
  | sub ha => exact s.reg_setReg_ne _ (named ha hr)
  | div ha => exact s.reg_setReg_ne _ (named ha hr)
  | push => exact s.reg_setReg_ne _ hr
  | call => exact s.reg_setReg_ne _ hr
  | ret => exact s.reg_setReg_ne _ hr
  | pop ha =>
    obtain ⟨hna, hsp⟩ := not_or.1 hr
    exact (State.reg_setReg_ne _ _ hsp).trans (s.reg_setReg_ne _ (named ha hna))
  | jeq => split <;> rfl
  | jne => split <;> rfl
  | _ => rfl

theorem exec_reg_eq {i : Instr} {s t : State} (h : exec i s = .next t) {r : RegIdx} (hr : ¬ Writes i r) :
    t.reg r = s.reg r := by
  rcases exec_inv h with he | ⟨r, -, rfl⟩
  · exact he.reg_eq hr
  · rfl

/-- Where an effect leaves the pc: past the instruction (rule R64), or at an 8-bit target (rule R24). -/
theorem Effect.pc_cases {i : Instr} {s t : State} (h : Effect i s t) :
    t.pc = s.pc + i.length ∨ ∃ b : Byte, t.pc = b.toNat := by
  cases h with
  | call => exact .inr ⟨_, rfl⟩
  | ret => exact .inr ⟨_, rfl⟩
  | jmp => exact .inr ⟨_, rfl⟩
  | jeq =>
    split
    · exact .inr ⟨_, rfl⟩
    · exact .inl (Nat.add_assoc ..)
  | jne =>
    split
    · exact .inr ⟨_, rfl⟩
    · exact .inl (Nat.add_assoc ..)
  | _ => exact .inl (Nat.add_assoc ..)

/-! ## What a step does -/

/-- The three things a step can do: take the error of its fetch, take an error of the instruction fetched, or have
that instruction's effect. -/
theorem step_inv {s t : State} (h : step s = .next t) :
    (∃ r, s.fetchDecode = .error r ∧ t = s.raise r) ∨ (∃ i r, InstrAt s i ∧ Raises i s r ∧ t = s.raise r) ∨
      ∃ i, InstrAt s i ∧ Effect i s t := by
  obtain ⟨-, hfetch | ⟨i, hi, he⟩⟩ := step_cases h
  · exact .inl hfetch
  · have hat := instrAt_iff_fetchDecode.2 hi
    rcases exec_inv he with he | ⟨r, hr, ht⟩
    · exact .inr (.inr ⟨i, hat, he⟩)
    · exact .inr (.inl ⟨i, r, hat, hr, ht⟩)

/-- A step out of a Running state executes the instruction at the pc. -/
theorem step_of_instrAt {s : State} {i : Instr} (hs : s.status = .running) (hi : InstrAt s i) :
    step s = exec i s := by
  rw [step_running hs, instrAt_iff_fetchDecode.1 hi]

/-- A step out of a Running state takes the error of its fetch. -/
theorem step_of_fetch_error {s : State} {r : FaultRecord} (hs : s.status = .running)
    (hr : s.fetchDecode = .error r) : step s = .next (s.raise r) := by
  rw [step_running hs, hr]

/-- A fetched instruction lies in memory whole, so its advance stays within 256 (rule R22). -/
theorem InstrAt.pc_add_length_le {s : State} {i : Instr} (h : InstrAt s i) : s.pc + i.length ≤ 256 := by
  obtain ⟨-, -, hpc⟩ := State.fetchDecode_ok_lookup (instrAt_iff_fetchDecode.1 h)
  unfold Instr.length
  omega

/-- Settles O10: fetch answers the instruction the bytes at the pc decode to, and the step executes it. -/
theorem stepRunsTheDecodedInstruction : Obligations.StepRunsTheDecodedInstruction :=
  fun _ _ hs hi => step_of_instrAt hs hi

/-- Settles O25: neither an error nor an execution touches the parameters. -/
theorem stepKeepsParameters : Obligations.StepKeepsParameters := by
  intro s t h
  obtain ⟨-, ⟨r, -, rfl⟩ | ⟨i, -, he⟩⟩ := step_cases h
  · rfl
  · exact exec_params_eq he

end Sys2Proof.Machine
end

section
/-! SUPPORT. The invariant: it holds at reset, every step keeps it, and so does every run. -/

namespace Sys2Proof.Machine

/-- Taking an error keeps the invariant, which does not speak of the status. -/
theorem State.Inv.raise {s : State} (h : s.Inv) (r : FaultRecord) : (s.raise r).Inv :=
  ⟨h.mem_wf, h.pc_le, h.fl_bit, h.params_wf⟩

theorem Effect.mem_wf {i : Instr} {s t : State} (h : Effect i s t) (hs : s.mem.wf) : t.mem.wf := by
  rcases h.mem_eq with he | ⟨v, -, -, he⟩
  · rwa [he]
  · rw [he]
    exact Memory.write_wf hs s.pushAddr.isLt v

/-- An effect leaves FL as it was, or as CMP sets it. -/
theorem Effect.fl_bit {i : Instr} {s t : State} (h : Effect i s t) (hs : s.fl = 0 ∨ s.fl = 1) :
    t.fl = 0 ∨ t.fl = 1 := by
  rcases h.fl_eq with ⟨ra, rb, rfl⟩ | he
  · cases h
    exact compareFlag_bit _ _
  · rwa [he]

/-- An effect leaves the pc past the instruction, which lies in memory whole, or at an 8-bit target. -/
theorem Effect.pc_le {i : Instr} {s t : State} (h : Effect i s t) (hi : s.pc + i.length ≤ 256) : t.pc ≤ 256 := by
  rcases h.pc_cases with he | ⟨b, he⟩
  · omega
  · have := b.isLt
    omega

theorem step_keeps_inv {s t : State} (hs : s.Inv) (h : step s = .next t) : t.Inv := by
  rcases step_inv h with ⟨r, -, rfl⟩ | ⟨_, r, -, -, rfl⟩ | ⟨i, hi, he⟩
  · exact hs.raise r
  · exact hs.raise r
  · exact ⟨he.mem_wf hs.mem_wf, he.pc_le hi.pc_add_length_le, he.fl_bit hs.fl_bit, he.params_eq ▸ hs.params_wf⟩

/-- Settles O3: an error changes none of the invariant's parts; an effect keeps each, by what it can do to memory,
the pc, FL and the parameters. -/
theorem stepKeepsInvariant : Obligations.StepKeepsInvariant := fun _ _ hs h => step_keeps_inv hs h

/-- Settles O4, by induction on the number of steps. -/
theorem runKeepsInvariant : Obligations.RunKeepsInvariant := by
  intro n
  induction n with
  | zero =>
    intro s t hs h
    cases h
    exact hs
  | succ n ih =>
    intro s t hs h
    simp only [Host.Core.run] at h
    split at h
    · next u hu => exact ih u t (step_keeps_inv hs hu) h
    · cases h
    · cases h

/-- Settles O2: the reset state's own values. -/
theorem invariantHoldsAtReset : Obligations.InvariantHoldsAtReset :=
  ⟨reset_mem_wf, Nat.zero_le _, .inl rfl, by decide⟩

/-- Settles O1: memory at reset lists no cell, and the registers are R7 and seven zeros. -/
theorem resetStateHoldsTheSpecValues : Obligations.ResetStateHoldsTheSpecValues :=
  ⟨Memory.read_nil, by decide, rfl, rfl, rfl, rfl, rfl, rfl⟩

end Sys2Proof.Machine
end

section
/-! SUPPORT. Encoding and decoding (`30_encoding.md`): what `decode` reads, given the name of the opcode byte. -/

namespace Sys2Proof

/-- An instruction built from a name carries as many of the two bytes as the name takes. -/
theorem Instr.operands_build (k : Mnemonic) (o1 o2 : Byte) :
    (Instr.build k o1 o2).operands = [o1, o2].take k.operandCount := by
  cases k <;> rfl

/-- Every instruction is built from its name and two bytes. -/
theorem Instr.exists_build (i : Instr) : ∃ o1 o2, i = .build i.mnemonic o1 o2 := by
  cases i with
  | hlt => exact ⟨0, 0, rfl⟩
  | ret => exact ⟨0, 0, rfl⟩
  | ldi ra imm => exact ⟨ra, imm, rfl⟩
  | add ra rb => exact ⟨ra, rb, rfl⟩
  | mul ra rb => exact ⟨ra, rb, rfl⟩
  | cmp ra rb => exact ⟨ra, rb, rfl⟩
  | sub ra rb => exact ⟨ra, rb, rfl⟩
  | div ra rb => exact ⟨ra, rb, rfl⟩
  | prn ra => exact ⟨ra, 0, rfl⟩
  | push ra => exact ⟨ra, 0, rfl⟩
  | pop ra => exact ⟨ra, 0, rfl⟩
  | call ra => exact ⟨ra, 0, rfl⟩
  | jmp ra => exact ⟨ra, 0, rfl⟩
  | jeq ra => exact ⟨ra, 0, rfl⟩
  | jne ra => exact ⟨ra, 0, rfl⟩

/-- `decode` reads a known opcode byte and the operand bytes its name takes, and leaves what follows. -/
theorem decode_build {m : OpcodeMap} {ext : Bool} {b : Byte} {k : Mnemonic} (hk : m.lookup ext b = some k)
    (o1 o2 : Byte) (rest : List Byte) :
    decode m ext (b :: ([o1, o2].take k.operandCount ++ rest)) = .ok (.build k o1 o2, rest) := by
  rw [decode, hk]
  cases k <;> rfl

/-- What `decode` answers after a known opcode byte has that byte's name, and the bytes it took are the operands. -/
theorem decode_cons_ok {m : OpcodeMap} {ext : Bool} {b : Byte} {k : Mnemonic} {bytes rest : List Byte} {i : Instr}
    (hk : m.lookup ext b = some k) (h : decode m ext (b :: bytes) = .ok (i, rest)) :
    i.mnemonic = k ∧ bytes = i.operands ++ rest := by
  simp only [decode, hk] at h
  split at h
  · next h0 =>
    cases h
    exact ⟨Instr.mnemonic_build .., by rw [Instr.operands_build, h0]; rfl⟩
  · cases h
  · next h1 =>
    cases h
    exact ⟨Instr.mnemonic_build .., by rw [Instr.operands_build, h1]; rfl⟩
  · cases h
  · cases h
  · next h0 h1 =>
    have h2 : k.operandCount = 2 :=
      k.operandCount_le.antisymm (Nat.lt_of_le_of_ne (Nat.pos_of_ne_zero h0) (Ne.symm h1))
    cases h
    exact ⟨Instr.mnemonic_build .., by rw [Instr.operands_build, h2]; rfl⟩

/-- An opcode byte that names nothing is reported whatever follows it. -/
theorem decode_unknown {m : OpcodeMap} {ext : Bool} {b : Byte} (hb : m.lookup ext b = none) (bytes : List Byte) :
    decode m ext (b :: bytes) = .error (.unknownOpcode b) := by
  rw [decode, hb]

/-- The first byte of bytes that decode names something. -/
theorem exists_lookup_of_decode_ok {m : OpcodeMap} {ext : Bool} {bytes : List Byte} {p : Instr × List Byte}
    (h : decode m ext bytes = .ok p) : ∃ b tail k, bytes = b :: tail ∧ m.lookup ext b = some k := by
  cases bytes with
  | nil => cases h
  | cons b tail =>
    cases hk : m.lookup ext b with
    | none =>
      rw [decode_unknown hk] at h
      cases h
    | some k => exact ⟨b, tail, k, rfl, hk⟩

/-- Settles O5: an unambiguous map finds each decoded name by its byte, and `decode` then reads the operands the
encoder wrote. -/
theorem Machine.decodeInvertsEncode : Obligations.DecodeInvertsEncode := by
  intro m ext i rest hm hi
  obtain ⟨o1, o2, hb⟩ := i.exists_build
  have hops : i.operands = [o1, o2].take i.mnemonic.operandCount := by
    rw [← Instr.operands_build, ← hb]
  calc decode m ext (encode m i ++ rest)
      = decode m ext (m.byteOf i.mnemonic :: ([o1, o2].take i.mnemonic.operandCount ++ rest)) := by
        rw [encode, hops, List.cons_append]
    _ = .ok (.build i.mnemonic o1 o2, rest) := decode_build (OpcodeMap.lookup_byteOf hm hi) o1 o2 rest
    _ = .ok (i, rest) := by rw [← hb]

/-- Settles O6: the opcode byte names the instruction and is the map's byte for that name, and the operands are the
bytes taken after it. -/
theorem Machine.encodeInvertsDecode : Obligations.EncodeInvertsDecode := by
  intro m ext bytes i rest h
  obtain ⟨b, tail, k, rfl, hk⟩ := exists_lookup_of_decode_ok h
  obtain ⟨hmem, hbyte⟩ := OpcodeMap.lookup_eq_some hk
  obtain ⟨rfl, rfl⟩ := decode_cons_ok hk h
  exact ⟨by rw [encode, hbyte, List.cons_append], hmem⟩

/-- Settles O7: each word is read by computing the default map's lookup. -/
theorem Machine.decodesWordsOfTheSpec : Obligations.DecodesWordsOfTheSpec :=
  ⟨rfl, rfl, rfl, rfl, rfl, rfl, rfl, rfl, rfl, rfl, rfl, rfl, rfl, rfl, rfl⟩

/-- Settles O8 by evaluating the lookup on the 256 bytes. -/
theorem Machine.unknownOpcodeByteCounts : Obligations.UnknownOpcodeByteCounts := by
  unfold Obligations.UnknownOpcodeByteCounts
  decide +kernel

end Sys2Proof
end

section
/-! SUPPORT. The errors of fetch and operand fetch (`40_loop.md` section 2), in the order of their checks. -/

namespace Sys2Proof.Machine

/-- An opcode fetch above 255 (rule R60). -/
theorem State.fetchDecode_above {s : State} (h : 255 < s.pc) :
    s.fetchDecode = .error (.addressOutOfRange .memory s.pc s.pc none) := by
  simp [State.fetchDecode, State.memRead, show ¬ s.pc < 256 by omega]

/-- An opcode byte in memory that names nothing (rule R61). -/
theorem State.fetchDecode_unknown {s : State} (hpc : s.pc ≤ 255)
    (h : s.params.opcodeMap.lookup s.params.aluExt (s.mem.read s.pc) = none) :
    s.fetchDecode = .error (.unknownOpcode s.pc (s.mem.read s.pc)) := by
  simp [State.fetchDecode, State.memRead, show s.pc < 256 by omega, h]

/-- After a known opcode byte its operands are fetched (rule R62). -/
theorem State.fetchDecode_known {s : State} {k : Mnemonic} (hpc : s.pc ≤ 255)
    (h : s.params.opcodeMap.lookup s.params.aluExt (s.mem.read s.pc) = some k) :
    s.fetchDecode = s.fetchOperands (s.mem.read s.pc) k := by
  simp [State.fetchDecode, State.memRead, show s.pc < 256 by omega, h]

/-- A first operand byte above 255. -/
theorem State.fetchOperands_missing_first {s : State} {k : Mnemonic} (b : Byte) (hk : 1 ≤ k.operandCount)
    (hpc : 255 < s.pc + 1) :
    s.fetchOperands b k = .error (.addressOutOfRange .memory (s.pc + 1) s.pc (some b)) := by
  simp only [State.fetchOperands, State.fetchOperand_eq, show ¬ s.pc + 1 < 256 by omega, if_false]
  split
  · omega
  · rfl
  · rfl

/-- A second operand byte above 255, the first being in memory. -/
theorem State.fetchOperands_missing_second {s : State} {k : Mnemonic} (b : Byte) (hk : k.operandCount = 2)
    (hpc : s.pc + 1 ≤ 255) (hpc2 : 255 < s.pc + 2) :
    s.fetchOperands b k = .error (.addressOutOfRange .memory (s.pc + 2) s.pc (some b)) := by
  simp [State.fetchOperands, State.fetchOperand_eq, hk, show s.pc + 1 < 256 by omega,
    show ¬ s.pc + 2 < 256 by omega]

/-- A Running block raises UnknownOpcode for a byte at the pc that names nothing. -/
theorem step_unknown {s : State} (hs : s.status = .running) (hpc : s.pc ≤ 255)
    (h : s.params.opcodeMap.lookup s.params.aluExt (s.mem.read s.pc) = none) :
    step s = .next (withError s (.unknownOpcode s.pc (s.mem.read s.pc))) :=
  step_of_fetch_error hs (State.fetchDecode_unknown hpc h)

/-- Settles O9: `decode` takes the opcode byte and its name's operands; a byte that names nothing is reported first,
by `decode` and by the step. -/
theorem lengthFromOpcodeByteAlone : Obligations.LengthFromOpcodeByteAlone := by
  refine ⟨fun m ext b k bytes rest i hk h => ?_, fun m ext b bytes hb => decode_unknown hb bytes,
    fun s hs hpc hb => step_unknown hs hpc hb⟩
  obtain ⟨rfl, rfl⟩ := decode_cons_ok hk h
  refine ⟨rfl, ?_⟩
  simp only [List.length_cons, List.length_append, Instr.length_operands]
  omega

/-- Settles O11: the step takes the error of the first fetch that lies above memory. -/
theorem fetchAboveMemoryRaises : Obligations.FetchAboveMemoryRaises := by
  intro s hs
  refine ⟨fun hpc => step_of_fetch_error hs (State.fetchDecode_above hpc), fun k hpc hk => ?_⟩
  have hops := State.fetchDecode_known hpc hk
  refine ⟨fun hn h1 => ?_, fun hn h1 h2 => ?_⟩
  · exact step_of_fetch_error hs (hops.trans (State.fetchOperands_missing_first _ hn h1))
  · exact step_of_fetch_error hs (hops.trans (State.fetchOperands_missing_second _ hn h1 h2))

end Sys2Proof.Machine
end

section
/-! SUPPORT. The advance of the pc (`40_loop.md` rule R64), and the errors and the halt of a step (`60_exceptions.md`
section 1, `10_state.md` section 5). -/

namespace Sys2Proof.Machine

/-! ## The advance -/

theorem State.flEqual_iff (s : State) : s.flEqual = true ↔ s.fl = 1 := by
  simp [State.flEqual]

theorem State.flNotEqual_iff (s : State) : s.flNotEqual = true ↔ s.fl = 0 := by
  simp [State.flNotEqual]

/-- The effect of an instruction that sets no pc advances by the instruction's length. -/
theorem Effect.pc_eq_add_length {i : Instr} {s t : State} (h : Effect i s t)
    (hi : ∀ ra, i ≠ .call ra ∧ i ≠ .jmp ra ∧ i ≠ .jeq ra ∧ i ≠ .jne ra) (hret : i ≠ .ret) :
    t.pc = s.pc + i.length := by
  cases h with
  | call => exact absurd rfl (hi _).1
  | jmp => exact absurd rfl (hi _).2.1
  | jeq => exact absurd rfl (hi _).2.2.1
  | jne => exact absurd rfl (hi _).2.2.2
  | ret => exact absurd rfl hret
  | _ => exact Nat.add_assoc ..

/-- JEQ not taken advances by 2. -/
theorem Effect.jeq_pc {ra : Byte} {s t : State} (h : Effect (.jeq ra) s t) (hfl : s.fl ≠ 1) :
    t.pc = s.pc + 2 := by
  cases h
  rw [if_neg (mt s.flEqual_iff.1 hfl)]
  rfl

/-- JNE not taken advances by 2. -/
theorem Effect.jne_pc {ra : Byte} {s t : State} (h : Effect (.jne ra) s t) (hfl : s.fl ≠ 0) :
    t.pc = s.pc + 2 := by
  cases h
  rw [if_neg (mt s.flNotEqual_iff.1 hfl)]
  rfl

/-- An execution that does not end Faulted had its effect. -/
theorem effect_of_exec {i : Instr} {s t : State} (h : exec i s = .next t) (ht : ∀ r, t.status ≠ .faulted r) :
    Effect i s t := by
  rcases exec_inv h with he | ⟨r, -, rfl⟩
  · exact he
  · exact absurd rfl (ht r)

/-- Settles O14: an execution that raised nothing had its effect, whose pc is read off. -/
theorem advanceByLength : Obligations.AdvanceByLength := by
  intro i s t _ h ht
  have he := effect_of_exec h ht
  refine ⟨he.pc_eq_add_length, ?_, ?_⟩
  · rintro ⟨ra, rfl⟩
    exact he.jeq_pc
  · rintro ⟨ra, rfl⟩
    exact he.jne_pc

/-! ## Where a status comes from -/

/-- From a Running state an effect does not end Faulted. -/
theorem Effect.not_faulted {i : Instr} {s t : State} (h : Effect i s t) (hs : s.status = .running)
    (r : FaultRecord) : t.status ≠ .faulted r := by
  rcases h.status_eq with ⟨-, he⟩ | ⟨-, he⟩
  · simp [he]
  · simp [he, hs]

/-- A step that ends Faulted took the error of its fetch, or one of the instruction fetched. -/
theorem step_faulted_cases {s t : State} {r : FaultRecord} (h : step s = .next t) (hr : t.status = .faulted r) :
    t = s.raise r ∧ (s.fetchDecode = .error r ∨ ∃ i, InstrAt s i ∧ Raises i s r) := by
  rcases step_inv h with ⟨q, hq, rfl⟩ | ⟨i, q, hi, hq, rfl⟩ | ⟨i, -, he⟩
  · cases hr
    exact ⟨rfl, .inl hq⟩
  · cases hr
    exact ⟨rfl, .inr ⟨i, hi, hq⟩⟩
  · exact absurd hr (he.not_faulted (step_cases h).1 r)

/-- The status after a step whose fetch reports an error. -/
theorem step_status_of_fetch_error {s t : State} {r : FaultRecord} (h : step s = .next t)
    (hr : s.fetchDecode = .error r) : t.status = .faulted r := by
  rw [step_of_fetch_error (step_cases h).1 hr] at h
  cases h
  rfl

/-- A step that answers a next state executed the instruction at the pc. -/
theorem exec_of_step {s t : State} {i : Instr} (h : step s = .next t) (hi : InstrAt s i) : exec i s = .next t :=
  (step_of_instrAt (step_cases h).1 hi).symm.trans h

/-- Settles O15: both ways to end Faulted are `raise`. -/
theorem errorChangesOnlyStatus : Obligations.ErrorChangesOnlyStatus :=
  fun _ _ _ h hr => (step_faulted_cases h hr).1

/-- Settles O18: of the effects only HLT's is Halted, and an error is Faulted. -/
theorem onlyHltHalts : Obligations.OnlyHltHalts := by
  intro s t h
  refine ⟨fun ht => ?_, fun hi => ?_⟩
  · rcases step_inv h with ⟨r, -, rfl⟩ | ⟨_, r, -, -, rfl⟩ | ⟨i, hi, he⟩
    · cases ht
    · cases ht
    · rcases he.status_eq with ⟨rfl, -⟩ | ⟨-, hst⟩
      · exact hi
      · rw [hst, (step_cases h).1] at ht
        cases ht
  · have hex := exec_of_step h hi
    cases hex
    rfl

/-! ## AddressOutOfRange -/

/-- The status is Faulted with AddressOutOfRange. -/
def AddressFaulted (t : State) : Prop :=
  ∃ space loc pc opcode, t.status = .faulted (.addressOutOfRange space loc pc opcode)

/-- An instruction's checks raise AddressOutOfRange, but for DIV by 0. -/
theorem Raises.address_or_div {i : Instr} {s : State} {r : FaultRecord} (h : Raises i s r) :
    (∃ space loc opcode, r = .addressOutOfRange space loc s.pc opcode) ∨
      ∃ ra rb a b, i = .div ra rb ∧ Names ra a ∧ Names rb b ∧ s.reg b = 0 ∧
        r = .divisionByZero s.pc (s.opcodeOf .div) := by
  cases h with
  | div ha hb h0 => exact .inr ⟨_, _, _, _, rfl, ha, hb, h0, rfl⟩
  | _ => exact .inl ⟨_, _, _, rfl⟩

/-- A failed push check, in the terms of rule R94's case 4. -/
theorem State.pushOk_eq_false_iff (s : State) :
    s.pushOk = false ↔ s.sp = 0 ∨ s.params.spInit.toNat < s.sp.toNat := by
  have hz : s.sp = 0 ↔ s.sp.toNat = 0 := by
    rw [← BitVec.toNat_inj]
    rfl
  rw [← Bool.not_eq_true, s.pushOk_iff, hz]
  omega

/-- A failed pop check, in the terms of rule R94's case 5. -/
theorem State.popOk_eq_false_iff (s : State) : s.popOk = false ↔ s.params.spInit.toNat ≤ s.sp.toNat := by
  rw [← Bool.not_eq_true, s.popOk_iff]
  omega

/-- Every AddressOutOfRange an instruction at the pc raises is in one of rule R94's cases 3 to 7. -/
theorem Raises.addressErrorCase {i : Instr} {s : State} {r : FaultRecord} (h : Raises i s r) (hi : InstrAt s i)
    (hr : ∀ pc b, r ≠ .divisionByZero pc b) : AddressErrorCase s := by
  cases h with
  | bad hb h7 => exact .inr (.inr (.inl ⟨i, hi, fun hwf => by have := hwf _ hb; omega⟩))
  | push hp => exact .inr (.inr (.inr (.inl ⟨_, .inl hi, s.pushOk_eq_false_iff.1 hp⟩)))
  | call hp => exact .inr (.inr (.inr (.inl ⟨_, .inr hi, s.pushOk_eq_false_iff.1 hp⟩)))
  | pop hp => exact .inr (.inr (.inr (.inr (.inl ⟨.inl ⟨_, hi⟩, s.popOk_eq_false_iff.1 hp⟩))))
  | ret hp => exact .inr (.inr (.inr (.inr (.inl ⟨.inr hi, s.popOk_eq_false_iff.1 hp⟩))))
  | pop2 hn hv => exact .inr (.inr (.inr (.inr (.inr (.inl ⟨_, hi, hn, hv⟩)))))
  | call2 hpc =>
    have hlen : s.pc + 2 ≤ 256 := hi.pc_add_length_le
    exact .inr (.inr (.inr (.inr (.inr (.inr ⟨_, hi, by omega⟩)))))
  | div => exact absurd rfl (hr _ _)

/-- A step whose instruction has no effect raises AddressOutOfRange, unless it is a DIV with legal indices. -/
theorem addressFaulted_of_no_effect {s t : State} {i : Instr} (h : step s = .next t) (hi : InstrAt s i)
    (hno : ¬ Effect i s t) (hdiv : ∀ ra rb, i = .div ra rb → ¬ i.wf) : AddressFaulted t := by
  obtain ⟨r, hr, rfl⟩ := (exec_inv (exec_of_step h hi)).resolve_left hno
  rcases hr.address_or_div with ⟨space, loc, opcode, rfl⟩ | ⟨ra, rb, a, b, rfl, ha, hb, -, -⟩
  · exact ⟨_, _, _, _, rfl⟩
  · have hwf : (Instr.div ra rb).wf := by
      have hra := ha.le
      have hrb := hb.le
      simp only [Instr.wf, Instr.registerOperands, List.forall_mem_cons, List.not_mem_nil]
      refine ⟨by omega, by omega, by simp⟩
    exact absurd hwf (hdiv ra rb rfl)

/-- A step whose opcode byte is out of memory, or known with an operand byte out of memory, raises
AddressOutOfRange. -/
theorem addressFaulted_of_fetch {s t : State} (h : step s = .next t)
    (hf : 255 < s.pc ∨ ∃ k, s.pc ≤ 255 ∧ s.params.opcodeMap.lookup s.params.aluExt (s.mem.read s.pc) = some k ∧
      255 < s.pc + k.operandCount) : AddressFaulted t := by
  cases hfd : s.fetchDecode with
  | ok i =>
    obtain ⟨hpc, hlookup, hops⟩ := State.fetchDecode_ok_lookup hfd
    rcases hf with hf | ⟨k, -, hk, hf⟩
    · omega
    · rw [hlookup] at hk
      cases hk
      omega
  | error r =>
    have hst := step_status_of_fetch_error h hfd
    rcases State.fetchDecode_error hfd with ⟨-, rfl⟩ | ⟨hpc, hnone, -⟩ | ⟨_, -, -, -, _, rfl⟩
    · exact ⟨_, _, _, _, hst⟩
    · rcases hf with hf | ⟨k, -, hk, -⟩
      · omega
      · rw [hnone] at hk
        cases hk
    · exact ⟨_, _, _, _, hst⟩

/-- In each of rule R94's seven cases the step raises AddressOutOfRange. -/
theorem addressFaulted_of_addressErrorCase {s t : State} (h : step s = .next t) (hc : AddressErrorCase s) :
    AddressFaulted t := by
  rcases hc with hc | hc | ⟨i, hi, hwf⟩ | ⟨ra, hi, hsp⟩ | ⟨hi, hsp⟩ | ⟨ra, hi, hra, hv⟩ | ⟨ra, hi, hpc⟩
  · exact addressFaulted_of_fetch h (.inl hc)
  · exact addressFaulted_of_fetch h (.inr hc)
  · exact addressFaulted_of_no_effect h hi (fun he => hwf he.wf) fun _ _ _ => hwf
  · rw [← s.pushOk_eq_false_iff] at hsp
    rcases hi with hi | hi
    · exact addressFaulted_of_no_effect h hi (fun he => by cases he; simp_all) nofun
    · exact addressFaulted_of_no_effect h hi (fun he => by cases he; simp_all) nofun
  · rw [← s.popOk_eq_false_iff] at hsp
    rcases hi with ⟨ra, hi⟩ | hi
    · exact addressFaulted_of_no_effect h hi (fun he => by cases he; simp_all) nofun
    · exact addressFaulted_of_no_effect h hi (fun he => by cases he; simp_all) nofun
  · refine addressFaulted_of_no_effect h hi (fun he => ?_) nofun
    cases he with
    | pop ha _ hn => exact hn ⟨ha.unique hra, hv⟩
  · refine addressFaulted_of_no_effect h hi (fun he => ?_) nofun
    cases he with
    | call _ _ hn => omega

/-- A step that raises AddressOutOfRange is in one of rule R94's seven cases. -/
theorem addressErrorCase_of_addressFaulted {s t : State} (h : step s = .next t) (ht : AddressFaulted t) :
    AddressErrorCase s := by
  obtain ⟨space, loc, pc, opcode, hst⟩ := ht
  obtain ⟨-, hf | ⟨i, hi, hr⟩⟩ := step_faulted_cases h hst
  · rcases State.fetchDecode_error hf with ⟨hpc, -⟩ | ⟨-, -, hr⟩ | ⟨k, hpc, hk, hops, -⟩
    · exact .inl hpc
    · cases hr
    · exact .inr (.inl ⟨k, hpc, hk, hops⟩)
  · exact hr.addressErrorCase hi nofun

/-- Settles O16: each direction by the cases of fetch and of an instruction's checks. -/
theorem addressErrorExactlyInTheSevenCases : Obligations.AddressErrorExactlyInTheSevenCases :=
  fun _ _ h => ⟨addressErrorCase_of_addressFaulted h, addressFaulted_of_addressErrorCase h⟩

/-! ## The other errors -/

/-- A step raises UnknownOpcode exactly for a byte at the pc that names nothing. -/
theorem step_unknownOpcode_iff {s t : State} (h : step s = .next t) (pc : Nat) (b : Byte) :
    t.status = .faulted (.unknownOpcode pc b) ↔
      pc = s.pc ∧ b = s.mem.read s.pc ∧ s.pc ≤ 255 ∧ s.params.opcodeMap.lookup s.params.aluExt b = none := by
  constructor
  · intro hst
    obtain ⟨-, hf | ⟨i, -, hr⟩⟩ := step_faulted_cases h hst
    · rcases State.fetchDecode_error hf with ⟨-, he⟩ | ⟨hpc, hnone, he⟩ | ⟨_, -, -, -, _, he⟩
      · cases he
      · cases he
        exact ⟨rfl, rfl, hpc, hnone⟩
      · cases he
    · cases hr
  · rintro ⟨rfl, rfl, hpc, hnone⟩
    exact step_status_of_fetch_error h (State.fetchDecode_unknown hpc hnone)

/-- A step raises DivisionByZero exactly for a DIV at the pc with legal indices and divisor 0. -/
theorem step_divisionByZero_iff {s t : State} (h : step s = .next t) (pc : Nat) (b : Byte) :
    t.status = .faulted (.divisionByZero pc b) ↔
      pc = s.pc ∧ b = s.mem.read s.pc ∧
        ∃ ra rb q d, InstrAt s (.div ra rb) ∧ Names ra q ∧ Names rb d ∧ s.reg d = 0 := by
  have hbyte : ∀ {ra rb}, InstrAt s (.div ra rb) → s.opcodeOf .div = s.mem.read s.pc := fun hi =>
    (State.fetchDecode_ok (instrAt_iff_fetchDecode.1 hi)).2.1
  constructor
  · intro hst
    obtain ⟨-, hf | ⟨i, hi, hr⟩⟩ := step_faulted_cases h hst
    · rcases State.fetchDecode_error hf with ⟨-, he⟩ | ⟨-, -, he⟩ | ⟨_, -, -, -, _, he⟩ <;> cases he
    · cases hr with
      | div hq hd h0 => exact ⟨rfl, hbyte hi, _, _, _, _, hi, hq, hd, h0⟩
  · rintro ⟨rfl, rfl, ra, rb, q, d, hi, hq, hd, h0⟩
    have hex := (exec_of_step h hi).symm.trans (exec_div_zero hq hd h0)
    cases hex
    rw [← hbyte hi]
    rfl

/-- The errors no step raises: the ALU's for an operation it does not have, and the loader's. -/
theorem step_not_unsupported_not_malformed {s t : State} {r : FaultRecord} (h : step s = .next t)
    (hr : t.status = .faulted r) :
    (∀ pc b, r ≠ .unsupportedAluOperation pc b) ∧ ∀ n, r ≠ .malformedProgramLine n := by
  obtain ⟨-, hf | ⟨i, -, hr⟩⟩ := step_faulted_cases h hr
  · rcases State.fetchDecode_error hf with ⟨-, rfl⟩ | ⟨-, -, rfl⟩ | ⟨_, -, -, -, _, rfl⟩
    · exact ⟨nofun, nofun⟩
    · exact ⟨nofun, nofun⟩
    · exact ⟨nofun, nofun⟩
  · rcases hr.address_or_div with ⟨_, _, _, rfl⟩ | ⟨_, _, _, _, -, -, -, -, rfl⟩
    · exact ⟨nofun, nofun⟩
    · exact ⟨nofun, nofun⟩

/-- Settles O17: which record each way to end Faulted leaves. -/
theorem otherErrorsExactlyWhereNamed : Obligations.OtherErrorsExactlyWhereNamed :=
  fun _ _ h => ⟨step_unknownOpcode_iff h, step_divisionByZero_iff h,
    fun pc b hr => (step_not_unsupported_not_malformed h hr).1 pc b rfl,
    fun n hr => (step_not_unsupported_not_malformed h hr).2 n rfl⟩

/-! ## Stores -/

/-- A step that changes a byte of memory ran a PUSH or a CALL, within the stack's bounds, and the byte is the one
below SP. -/
theorem step_mem_ne {s t : State} {a : Nat} (hs : s.mem.wf) (h : step s = .next t)
    (ha : t.mem.read a ≠ s.mem.read a) :
    (∃ ra, InstrAt s (.push ra) ∨ InstrAt s (.call ra)) ∧ s.pushOk = true ∧ a = s.pushAddr.toNat := by
  rcases step_inv h with ⟨r, -, rfl⟩ | ⟨_, r, -, -, rfl⟩ | ⟨i, hi, he⟩
  · exact absurd rfl ha
  · exact absurd rfl ha
  · rcases he.mem_eq with hm | ⟨v, hp, ⟨ra, hra⟩, hm⟩
    · rw [hm] at ha
      exact absurd rfl ha
    · refine ⟨⟨ra, hra.imp (fun e : i = .push ra => e ▸ hi) fun e : i = .call ra => e ▸ hi⟩, hp, ?_⟩
      by_contra hne
      rw [hm, Memory.read_write hs, if_neg hne] at ha
      exact ha rfl

/-- Settles O21: the one byte a step can change, and the stack's bounds. -/
theorem onlyPushAndCallStoreInTheStackRegion : Obligations.OnlyPushAndCallStoreInTheStackRegion := by
  intro s t a hs h ha
  obtain ⟨hi, hp, rfl⟩ := step_mem_ne hs.mem_wf h ha
  obtain ⟨hlow, hhigh⟩ := s.pushOk_iff.1 hp
  rw [s.pushAddr_toNat hp]
  exact ⟨hi, by omega, by omega⟩

end Sys2Proof.Machine
end

section
/-! SUPPORT. Two executions side by side: an instruction runs alike from two states that agree in all it reads. One
lemma per shared operation and one case split over the instructions, for any relation that the updates of the state
keep; then the relations "the same but for memory", "but for what stands in `out`" and "but for the trace hook". -/

namespace Sys2Proof.Machine

/-- A relation of states that agree in all an instruction reads but memory, and that every update keeps. -/
structure Lockstep (R : State → State → Prop) : Prop where
  x_eq      {s u} : R s u → u.x = s.x
  pc_eq     {s u} : R s u → u.pc = s.pc
  fl_eq     {s u} : R s u → u.fl = s.fl
  spInit_eq {s u} : R s u → u.params.spInit = s.params.spInit
  map_eq    {s u} : R s u → u.params.opcodeMap = s.params.opcodeMap
  setReg    {s u} (r : RegIdx) (v : Byte) : R s u → R (s.setReg r v) (u.setReg r v)
  advance   {s u} (n : Nat) : R s u → R (s.advance n) (u.advance n)
  jumpTo    {s u} (b : Byte) : R s u → R (s.jumpTo b) (u.jumpTo b)
  setFl     {s u} (v : Byte) : R s u → R (s.setFl v) (u.setFl v)
  emit      {s u} (v : Byte) : R s u → R (s.emit v) (u.emit v)
  halt      {s u} : R s u → R s.halt u.halt
  raise     {s u} (r : FaultRecord) : R s u → R (s.raise r) (u.raise r)
  store     {s u} (a v : Byte) : R s u → R (s.store a v) (u.store a v)

/-- Two answers are next states that are related. -/
def NextRel (R : State → State → Prop) (q q' : Result) : Prop := ∃ t u, q = .next t ∧ q' = .next u ∧ R t u

/-- Related answers that are known are related states. -/
theorem NextRel.rel {R : State → State → Prop} {q q' : Result} (h : NextRel R q q') {t u : State}
    (ht : q = .next t) (hu : q' = .next u) : R t u := by
  obtain ⟨t', u', rfl, rfl, hR⟩ := h
  cases ht
  cases hu
  exact hR

namespace Lockstep

variable {R : State → State → Prop} {s u : State}

theorem next (h : R s u) : NextRel R (.next s) (.next u) := ⟨s, u, rfl, rfl, h⟩

variable (hR : Lockstep R) (h : R s u)
include hR h

theorem reg_eq (r : RegIdx) : u.reg r = s.reg r := by
  rw [State.reg, State.reg, hR.x_eq h]

theorem sp_eq : u.sp = s.sp := hR.reg_eq h spIndex

theorem pushAddr_eq : u.pushAddr = s.pushAddr := by
  rw [State.pushAddr, State.pushAddr, hR.sp_eq h]

theorem pushOk_eq : u.pushOk = s.pushOk := by
  rw [State.pushOk, State.pushOk, hR.sp_eq h, hR.spInit_eq h]

theorem popOk_eq : u.popOk = s.popOk := by
  rw [State.popOk, State.popOk, hR.sp_eq h, hR.spInit_eq h]

theorem opcodeOf_eq (k : Mnemonic) : u.opcodeOf k = s.opcodeOf k := by
  rw [State.opcodeOf, State.opcodeOf, hR.map_eq h]

theorem decSp : R s.decSp u.decSp := by
  rw [State.decSp, State.decSp, hR.sp_eq h]
  exact hR.setReg _ _ h

theorem incSp : R s.incSp u.incSp := by
  rw [State.incSp, State.incSp, hR.sp_eq h]
  exact hR.setReg _ _ h

/-- The store of PUSH and CALL, after SP's pre-decrement. -/
theorem pushStore (v : Byte) : R (s.decSp.store s.pushAddr v) (u.decSp.store u.pushAddr v) := by
  rw [hR.pushAddr_eq h]
  exact hR.store _ _ (hR.decSp h)

theorem withReg (k : Mnemonic) (b : Byte) {body body' : RegIdx → Result}
    (hb : ∀ r, NextRel R (body r) (body' r)) : NextRel R (s.withReg k b body) (u.withReg k b body') := by
  rcases names_or_bad b with ⟨r, hr⟩ | h7
  · rw [s.withReg_names k hr, u.withReg_names k hr]
    exact hb r
  · rw [s.withReg_bad k h7, u.withReg_bad k h7, hR.pc_eq h, hR.opcodeOf_eq h]
    exact next (hR.raise _ h)

theorem withPush (k : Mnemonic) {body body' : Result} (hb : NextRel R body body') :
    NextRel R (s.withPush k body) (u.withPush k body') := by
  cases hp : s.pushOk with
  | true =>
    rw [s.withPush_ok k body hp, u.withPush_ok k body' ((hR.pushOk_eq h).trans hp)]
    exact hb
  | false =>
    rw [s.withPush_bad k body hp, u.withPush_bad k body' ((hR.pushOk_eq h).trans hp), hR.sp_eq h, hR.pc_eq h,
      hR.opcodeOf_eq h]
    exact next (hR.raise _ h)

/-- The bounds check of a pop, from states whose memories agree at SP. -/
theorem withPop (hl : u.load u.sp = s.load s.sp) (k : Mnemonic) {body body' : Byte → Result}
    (hb : ∀ v, NextRel R (body v) (body' v)) : NextRel R (s.withPop k body) (u.withPop k body') := by
  cases hp : s.popOk with
  | true =>
    rw [s.withPop_ok k body hp, u.withPop_ok k body' ((hR.popOk_eq h).trans hp), hl]
    exact hb _
  | false =>
    rw [s.withPop_bad k body hp, u.withPop_bad k body' ((hR.popOk_eq h).trans hp), hR.sp_eq h, hR.pc_eq h,
      hR.opcodeOf_eq h]
    exact next (hR.raise _ h)

theorem alu (op : Mnemonic) (ra rb : Byte) : NextRel R (s.alu op ra rb) (u.alu op ra rb) := by
  refine hR.withReg h op ra fun a => hR.withReg h op rb fun b => ?_
  rw [hR.reg_eq h, hR.reg_eq h, hR.pc_eq h, hR.opcodeOf_eq h]
  cases aluApply op (s.reg a) (s.reg b) with
  | value v => exact next (hR.advance _ (hR.setReg _ _ h))
  | divisionByZero => exact next (hR.raise _ h)
  | unsupported => exact next (hR.raise _ h)

/-- A conditional jump whose condition is the same in both states. -/
theorem jumpIf (a : RegIdx) (c : Bool) :
    NextRel R (.next (if c then s.jumpTo (s.reg a) else s.advance 1))
      (.next (if c then u.jumpTo (u.reg a) else u.advance 1)) := by
  rw [hR.reg_eq h]
  cases c with
  | true => exact next (hR.jumpTo _ h)
  | false => exact next (hR.advance _ h)

/-- Every instruction runs alike from related states; POP and RET where their memories agree at SP. -/
theorem exec {i : Instr} (hl : ((∃ ra, i = .pop ra) ∨ i = .ret) → u.load u.sp = s.load s.sp) :
    NextRel R (Machine.exec i s) (Machine.exec i u) := by
  cases i with
  | ldi ra imm => exact hR.withReg h _ _ fun a => next (hR.advance _ (hR.setReg _ _ h))
  | prn ra =>
    refine hR.withReg h _ _ fun a => ?_
    rw [hR.reg_eq h]
    exact next (hR.advance _ (hR.emit _ h))
  | hlt => exact next (hR.advance _ (hR.halt h))
  | add ra rb => exact hR.alu h _ _ _
  | mul ra rb => exact hR.alu h _ _ _
  | sub ra rb => exact hR.alu h _ _ _
  | div ra rb => exact hR.alu h _ _ _
  | push ra =>
    refine hR.withReg h _ _ fun a => hR.withPush h _ ?_
    rw [hR.reg_eq (hR.decSp h)]
    exact next (hR.advance _ (hR.pushStore h _))
  | pop ra =>
    refine hR.withReg h _ _ fun a => hR.withPop h (hl (.inl ⟨ra, rfl⟩)) _ fun v => ?_
    rw [hR.pc_eq h, hR.opcodeOf_eq h]
    split
    · exact next (hR.raise _ h)
    · exact next (hR.advance _ (hR.incSp (hR.setReg _ _ h)))
  | call ra =>
    refine hR.withReg h _ _ fun a => hR.withPush h _ ?_
    rw [hR.pc_eq h, hR.opcodeOf_eq h, hR.reg_eq (hR.decSp h)]
    split
    · exact next (hR.raise _ h)
    · exact next (hR.jumpTo _ (hR.pushStore h _))
  | ret =>
    rw [exec_ret, exec_ret]
    exact hR.withPop h (hl (.inr rfl)) _ fun v => next (hR.jumpTo v (hR.incSp h))
  | cmp ra rb =>
    refine hR.withReg h _ _ fun a => hR.withReg h _ _ fun b => ?_
    rw [hR.reg_eq h, hR.reg_eq h]
    exact next (hR.advance _ (hR.setFl _ h))
  | jmp ra =>
    refine hR.withReg h _ _ fun a => ?_
    rw [hR.reg_eq h]
    exact next (hR.jumpTo _ h)
  | jeq ra =>
    refine hR.withReg h _ _ fun a => ?_
    rw [State.flEqual, State.flEqual, hR.fl_eq h]
    exact hR.jumpIf h a _
  | jne ra =>
    refine hR.withReg h _ _ fun a => ?_
    rw [State.flNotEqual, State.flNotEqual, hR.fl_eq h]
    exact hR.jumpIf h a _

/-- Where fetch, the status and the byte at SP agree too, a step runs alike. -/
theorem step {t : State} (hs : u.status = s.status) (hf : u.fetchDecode = s.fetchDecode)
    (hl : u.load u.sp = s.load s.sp) (ht : Machine.step s = .next t) :
    ∃ t', Machine.step u = .next t' ∧ R t t' := by
  obtain ⟨hrun, ⟨r, hr, rfl⟩ | ⟨i, hi, he⟩⟩ := step_cases ht
  · exact ⟨u.raise r, step_of_fetch_error (hs.trans hrun) (hf.trans hr), hR.raise r h⟩
  · obtain ⟨t₀, t', ht₀, hu, hrel⟩ := hR.exec h (i := i) fun _ => hl
    rw [he] at ht₀
    cases ht₀
    exact ⟨t', by rw [step_running (hs.trans hrun), hf, hi]; exact hu, hrel⟩

end Lockstep

/-! ## Memory is read by POP and RET alone -/

/-- The two states differ in memory alone. -/
def SameButMem (s u : State) : Prop := ∃ m, u = { s with mem := m }

theorem sameButMem_lockstep : Lockstep SameButMem where
  x_eq := by rintro s _ ⟨m, rfl⟩; rfl
  pc_eq := by rintro s _ ⟨m, rfl⟩; rfl
  fl_eq := by rintro s _ ⟨m, rfl⟩; rfl
  spInit_eq := by rintro s _ ⟨m, rfl⟩; rfl
  map_eq := by rintro s _ ⟨m, rfl⟩; rfl
  setReg := by rintro s _ r v ⟨m, rfl⟩; exact ⟨m, rfl⟩
  advance := by rintro s _ n ⟨m, rfl⟩; exact ⟨m, rfl⟩
  jumpTo := by rintro s _ b ⟨m, rfl⟩; exact ⟨m, rfl⟩
  setFl := by rintro s _ v ⟨m, rfl⟩; exact ⟨m, rfl⟩
  emit := by rintro s _ v ⟨m, rfl⟩; exact ⟨m, rfl⟩
  halt := by rintro s _ ⟨m, rfl⟩; exact ⟨m, rfl⟩
  raise := by rintro s _ r ⟨m, rfl⟩; exact ⟨m, rfl⟩
  store := by rintro s _ a v ⟨m, rfl⟩; exact ⟨m.write a.toNat v, rfl⟩

/-- The two memories are canonical, and hold at each address what `m` and `n` held there, or the same byte. -/
def CellsKeptOrSame (m n : Memory) (s u : State) : Prop :=
  s.mem.wf ∧ u.mem.wf ∧
    ∀ a, (s.mem.read a = m.read a ∧ u.mem.read a = n.read a) ∨ u.mem.read a = s.mem.read a

theorem CellsKeptOrSame.store {m n : Memory} {s u : State} (h : CellsKeptOrSame m n s u) (a v : Byte) :
    CellsKeptOrSame m n (s.store a v) (u.store a v) := by
  obtain ⟨hs, hu, hcells⟩ := h
  refine ⟨State.store_wf hs a v, State.store_wf hu a v, fun c => ?_⟩
  rw [State.store_mem, State.store_mem, Memory.read_write hs, Memory.read_write hu]
  by_cases hc : c = a.toNat
  · simp [hc]
  · simpa [hc] using hcells c

theorem cellsKeptOrSame_lockstep (m n : Memory) :
    Lockstep fun s u => SameButMem s u ∧ CellsKeptOrSame m n s u where
  x_eq h := sameButMem_lockstep.x_eq h.1
  pc_eq h := sameButMem_lockstep.pc_eq h.1
  fl_eq h := sameButMem_lockstep.fl_eq h.1
  spInit_eq h := sameButMem_lockstep.spInit_eq h.1
  map_eq h := sameButMem_lockstep.map_eq h.1
  setReg r v h := ⟨sameButMem_lockstep.setReg r v h.1, h.2⟩
  advance k h := ⟨sameButMem_lockstep.advance k h.1, h.2⟩
  jumpTo b h := ⟨sameButMem_lockstep.jumpTo b h.1, h.2⟩
  setFl v h := ⟨sameButMem_lockstep.setFl v h.1, h.2⟩
  emit v h := ⟨sameButMem_lockstep.emit v h.1, h.2⟩
  halt h := ⟨sameButMem_lockstep.halt h.1, h.2⟩
  raise r h := ⟨sameButMem_lockstep.raise r h.1, h.2⟩
  store a v h := ⟨sameButMem_lockstep.store a v h.1, h.2.store a v⟩

/-- On canonical memories, each byte is left alone by both executions or is the same after both. -/
theorem exec_cellsKeptOrSame {i : Instr} {s t u : State} {m : Memory} (hs : s.mem.wf) (hm : m.wf)
    (ht : exec i s = .next t) (hu : exec i { s with mem := m } = .next u) (a : Nat) :
    (t.mem.read a = s.mem.read a ∧ u.mem.read a = m.read a) ∨ u.mem.read a = t.mem.read a := by
  by_cases hi : (∃ ra, i = .pop ra) ∨ i = .ret
  · have hns : ∀ ra, i ≠ .push ra ∧ i ≠ .call ra := by
      rcases hi with ⟨ra, rfl⟩ | rfl
      · exact fun _ => ⟨nofun, nofun⟩
      · exact fun _ => ⟨nofun, nofun⟩
    rw [exec_mem_eq ht hns, exec_mem_eq hu hns]
    exact .inl ⟨rfl, rfl⟩
  · have hrel := (cellsKeptOrSame_lockstep s.mem m).exec (s := s) (u := { s with mem := m })
      ⟨⟨m, rfl⟩, hs, hm, fun _ => .inl ⟨rfl, rfl⟩⟩ fun hp => absurd hp hi
    exact (hrel.rel ht hu).2.2.2 a

/-- What PUSH and CALL store does not come from memory: it is a function of the rest of the state. -/
theorem exec_stored_byte {i : Instr} {ra : Byte} {s : State}
    (hi : i = .push ra ∨ (i = .call ra ∧ s.pc + 2 ≤ 255)) (hra : ra.toNat ≤ 7) (hp : s.pushOk = true) :
    ∃ v, ∀ {m : Memory} {u : State}, m.wf → exec i { s with mem := m } = .next u →
      u.mem.read s.pushAddr.toNat = v := by
  obtain ⟨a, ha⟩ := exists_names hra
  rcases hi with rfl | ⟨rfl, hpc⟩
  · refine ⟨s.decSp.reg a, fun {m u} hm hu => ?_⟩
    rw [(Effect.push (s := { s with mem := m }) ha hp).eq_of_exec hu]
    exact (Memory.read_write hm _ _ _).trans (if_pos rfl)
  · refine ⟨BitVec.ofNat 8 (s.pc + 2), fun {m u} hm hu => ?_⟩
    rw [(Effect.call (s := { s with mem := m }) ha hp (by show ¬ 256 ≤ s.pc + 2; omega)).eq_of_exec hu]
    exact (Memory.read_write hm _ _ _).trans (if_pos rfl)

/-- Settles O22: executions from states that differ in memory alone run in lockstep, POP and RET where the memories
agree at SP; each store writes one byte that does not come from memory. -/
theorem onlyPopAndRetReadMemoryAtSp : Obligations.OnlyPopAndRetReadMemoryAtSp := by
  refine ⟨fun i s t u m hl ht hu => ?_, fun i s t u m hs hm ht hu => exec_cellsKeptOrSame hs hm ht hu,
    fun i ra s t u m hi hra hp hs hm ht hu => ?_⟩
  · obtain ⟨m', rfl⟩ := (sameButMem_lockstep.exec (s := s) ⟨m, rfl⟩ hl).rel ht hu
    rfl
  · obtain ⟨v, hv⟩ := exec_stored_byte hi hra hp
    rw [hv hm hu, hv hs ht]

/-! ## `out` is not read -/

/-- The second state has `pre` before what the first has written. -/
def OutPrefixed (pre : List Byte) (s u : State) : Prop := u = { s with out := pre ++ s.out }

theorem outPrefixed_lockstep (pre : List Byte) : Lockstep (OutPrefixed pre) where
  x_eq := by rintro s _ rfl; rfl
  pc_eq := by rintro s _ rfl; rfl
  fl_eq := by rintro s _ rfl; rfl
  spInit_eq := by rintro s _ rfl; rfl
  map_eq := by rintro s _ rfl; rfl
  setReg := by rintro s _ r v rfl; rfl
  advance := by rintro s _ n rfl; rfl
  jumpTo := by rintro s _ b rfl; rfl
  setFl := by rintro s _ v rfl; rfl
  emit := by
    rintro s _ v rfl
    simp [OutPrefixed, State.emit]
  halt := by rintro s _ rfl; rfl
  raise := by rintro s _ r rfl; rfl
  store := by rintro s _ a v rfl; rfl

/-- Running on a state that has written nothing shows what the step writes, whatever `out` held. -/
theorem step_out_prefixed {s t₀ : State} (h : step { s with out := [] } = .next t₀) (o : List Byte) :
    step { s with out := o } = .next { t₀ with out := o ++ t₀.out } := by
  have hstart : OutPrefixed o { s with out := [] } { s with out := o } := by simp [OutPrefixed]
  obtain ⟨t', ht', rfl⟩ := (outPrefixed_lockstep o).step hstart rfl rfl rfl h
  exact ht'

/-- A step that changes `out` ran a PRN with a legal index, and wrote the value of its register at the end. -/
theorem step_out_ne {s t : State} (h : step s = .next t) (ho : t.out ≠ s.out) :
    ∃ ra r, InstrAt s (.prn ra) ∧ Names ra r ∧ t.out = s.out ++ [s.reg r] := by
  rcases step_inv h with ⟨r, -, rfl⟩ | ⟨_, r, -, -, rfl⟩ | ⟨i, hi, he⟩
  · exact absurd rfl ho
  · exact absurd rfl ho
  · obtain ⟨ra, r, rfl, hr, hout⟩ := he.out_cases.resolve_right ho
    exact ⟨ra, r, hi, hr, hout⟩

/-- Settles O23: only PRN's effect writes `out`; and the step is that of the state with an empty `out`, with what it
writes put after the old `out`. -/
theorem outputGrowsOnlyByPrnAndIsNeverRead : Obligations.OutputGrowsOnlyByPrnAndIsNeverRead := by
  refine ⟨fun s t h ho => step_out_ne h ho, fun s t h => ?_⟩
  obtain ⟨t₀, ht₀⟩ := step_exists_next (s := { s with out := [] }) (step_cases h).1
  have hs : step s = .next { t₀ with out := s.out ++ t₀.out } := step_out_prefixed ht₀ s.out
  rw [h] at hs
  cases hs
  exact ⟨t₀.out, rfl, step_out_prefixed ht₀⟩

/-! ## The trace hook -/

/-- The state with `TRACE_ENABLED` switched. -/
def State.setTrace (s : State) (on : Bool) : State := { s with params := { s.params with traceEnabled := on } }

theorem setTrace_lockstep (on : Bool) : Lockstep fun s u => u = s.setTrace on where
  x_eq := by rintro s _ rfl; rfl
  pc_eq := by rintro s _ rfl; rfl
  fl_eq := by rintro s _ rfl; rfl
  spInit_eq := by rintro s _ rfl; rfl
  map_eq := by rintro s _ rfl; rfl
  setReg := by rintro s _ r v rfl; rfl
  advance := by rintro s _ n rfl; rfl
  jumpTo := by rintro s _ b rfl; rfl
  setFl := by rintro s _ v rfl; rfl
  emit := by rintro s _ v rfl; rfl
  halt := by rintro s _ rfl; rfl
  raise := by rintro s _ r rfl; rfl
  store := by rintro s _ a v rfl; rfl

/-- Settles O24: no instruction and no fetch reads TRACE_ENABLED, so the step runs in lockstep with it switched. -/
theorem traceHookChangesNoStep : Obligations.TraceHookChangesNoStep := by
  intro s t on h
  obtain ⟨_, ht', rfl⟩ := (setTrace_lockstep on).step (u := s.setTrace on) rfl rfl rfl rfl h
  exact ht'

end Sys2Proof.Machine
end

section
/-! SUPPORT. The frames of the instructions, from what every execution keeps. -/

namespace Sys2Proof.Machine

/-- The parts of a frame that hold of every instruction but HLT, CMP and PRN. -/
theorem exec_frame {i : Instr} {s t : State} (h : exec i s = .next t) (hcmp : ∀ ra rb, i ≠ .cmp ra rb)
    (hprn : ∀ ra, i ≠ .prn ra) (hhlt : i ≠ .hlt) :
    t.fl = s.fl ∧ t.out = s.out ∧ StatusKeptOrFaulted s t ∧ t.params = s.params :=
  ⟨exec_fl_eq h hcmp, exec_out_eq h hprn, exec_status h hhlt, exec_params_eq h⟩

/-- An instruction other than PUSH and CALL keeps every byte of memory. -/
theorem exec_memKept {i : Instr} {s t : State} (h : exec i s = .next t)
    (hi : ∀ ra, i ≠ .push ra ∧ i ≠ .call ra) : MemKept s t := by
  intro a
  rw [exec_mem_eq h hi]

/-- Settles O46: of the registers these write the one `ra` names. -/
theorem frameOfRegisterWriters : Obligations.FrameOfRegisterWriters := by
  intro i ra rb s t hi h
  rcases hi with rfl | rfl | rfl | rfl | rfl <;>
    exact ⟨fun r hr => exec_reg_eq h hr, exec_memKept h fun _ => ⟨nofun, nofun⟩, exec_frame h nofun nofun nofun⟩

/-- Every instruction keeps every byte of memory but the one below SP. -/
theorem exec_memKeptExcept {i : Instr} {s t : State} (hs : s.mem.wf) (h : exec i s = .next t) :
    MemKeptExcept s.pushAddr.toNat s t := by
  intro a ha
  rcases exec_mem_cases h with hm | ⟨v, -, -, hm⟩
  · rw [hm]
  · rw [hm, Memory.read_write hs, if_neg ha]

/-- Outside the stack's bounds no instruction stores. -/
theorem exec_memKept_of_not_pushOk {i : Instr} {s t : State} (h : exec i s = .next t) (hp : s.pushOk = false) :
    MemKept s t := by
  intro a
  rcases exec_mem_cases h with hm | ⟨v, hp', -, -⟩
  · rw [hm]
  · rw [hp] at hp'
    cases hp'

/-- Settles O47: PUSH and CALL write SP and the byte below it. -/
theorem frameOfStores : Obligations.FrameOfStores := by
  intro i ra s t hi hs h
  have hmem := exec_memKeptExcept hs h
  have hbounds := exec_memKept_of_not_pushOk h
  rcases hi with rfl | rfl <;>
    exact ⟨fun r hr => exec_reg_eq h (mt List.mem_singleton.2 hr), hmem, hbounds, exec_frame h nofun nofun nofun⟩

/-- Settles O48: POP writes SP and the register `ra` names, RET writes SP. -/
theorem frameOfStackReads : Obligations.FrameOfStackReads := by
  refine ⟨fun ra s t h => ?_, fun s t h => ?_⟩
  · exact ⟨fun r hra hsp => exec_reg_eq h (not_or.2 ⟨hra, hsp⟩), exec_memKept h fun _ => ⟨nofun, nofun⟩,
      exec_frame h nofun nofun nofun⟩
  · exact ⟨fun r hr => exec_reg_eq h (mt List.mem_singleton.2 hr), exec_memKept h fun _ => ⟨nofun, nofun⟩,
      exec_frame h nofun nofun nofun⟩

/-- Settles O49: these write no register and no memory; FL, `out` and the status each have the one writer named. -/
theorem frameOfTheOthers : Obligations.FrameOfTheOthers := by
  intro i ra rb s t hi h
  have hw : ∀ r, ¬ Writes i r := by
    rcases hi with rfl | rfl | rfl | rfl | rfl | rfl <;> exact fun _ => id
  have hns : ∀ qa, i ≠ .push qa ∧ i ≠ .call qa := by
    rcases hi with rfl | rfl | rfl | rfl | rfl | rfl <;> exact fun _ => ⟨nofun, nofun⟩
  have hcmp : i ≠ .cmp ra rb → ∀ qa qb, i ≠ .cmp qa qb := by
    rintro hn qa qb rfl
    simp_all
  have hprn : i ≠ .prn ra → ∀ qa, i ≠ .prn qa := by
    rintro hn qa rfl
    simp_all
  exact ⟨fun r _ => exec_reg_eq h (hw r), exec_memKept h hns, fun hn => exec_fl_eq h (hcmp hn),
    fun hn => exec_out_eq h (hprn hn), exec_status h, exec_params_eq h⟩

end Sys2Proof.Machine
end

section
/-! SUPPORT. Memory, the loader and runs (`20_memory.md` section 1, `70_reset_and_hazards.md` section 1,
`60_exceptions.md` section 6, `40_loop.md` section 3). -/

namespace Sys2Proof.Machine

/-! ## Memory accesses -/

theorem State.memRead_eq_none_iff (s : State) (a : Nat) : s.memRead a = none ↔ 255 < a := by
  rw [State.memRead]
  split
  · simp only [reduceCtorEq, false_iff]
    omega
  · simp only [true_iff]
    omega

theorem State.memWrite_eq_none_iff (s : State) (a : Nat) (v : Byte) : s.memWrite a v = none ↔ 255 < a := by
  rw [State.memWrite]
  split
  · simp only [reduceCtorEq, false_iff]
    omega
  · simp only [true_iff]
    omega

/-- Settles O51: the bounds check of both operations. -/
theorem accessOutsideMemoryRaises : Obligations.AccessOutsideMemoryRaises :=
  fun s a v => ⟨s.memRead_eq_none_iff a, s.memWrite_eq_none_iff a v⟩

/-- `MemRead` after a write in bounds. -/
theorem State.memRead_write {s : State} (hs : s.mem.wf) (a : Nat) (v : Byte) (b : Nat) :
    State.memRead { s with mem := s.mem.write a v } b =
      if b < 256 then some (if b = a then v else s.mem.read b) else none := by
  rw [State.memRead, Memory.read_write hs]

/-- Settles O50: what a read gives after a write of one cell. -/
theorem memoryWriteChangesExactlyOneCell : Obligations.MemoryWriteChangesExactlyOneCell := by
  intro s a v hs ha
  have hlt : a < 256 := by omega
  refine ⟨if_pos hlt, _, if_pos hlt, ?_, fun b hb => ?_, Memory.write_wf hs hlt v, rfl⟩
  · rw [State.memRead_write hs, if_pos hlt, if_pos rfl]
  · rw [State.memRead_write hs, if_neg hb, State.memRead]

/-- A listed cell of a canonical memory reads as other than unlisted. -/
theorem Memory.read_head_ne {b : Nat} {w : Byte} {m : Memory} (h : Memory.wf ((b, w) :: m)) :
    Memory.read ((b, w) :: m) b ≠ unlistedByte := by
  rw [Memory.read_cons, if_pos rfl]
  exact (Memory.wf_cons.1 h).2.1.2

/-- A canonical memory reads as unlisted below its first cell. -/
theorem Memory.read_before_head {b : Nat} {w : Byte} {m : Memory} (h : Memory.wf ((b, w) :: m)) {a : Nat}
    (ha : a < b) : Memory.read ((b, w) :: m) a = unlistedByte := by
  refine Memory.read_below ?_
  rw [List.forall_mem_cons]
  exact ⟨ha, fun c hc => ha.trans ((Memory.wf_cons.1 h).1 c hc)⟩

/-- What the rest of a canonical memory reads, in terms of the whole. -/
theorem Memory.read_tail {b : Nat} {w : Byte} {m : Memory} (h : Memory.wf ((b, w) :: m)) (a : Nat) :
    m.read a = if a = b then unlistedByte else Memory.read ((b, w) :: m) a := by
  split
  · next hab =>
    subst hab
    exact Memory.read_below (Memory.wf_cons.1 h).1
  · next hab => rw [Memory.read_cons, if_neg hab]

/-- Canonical memories that read alike everywhere are equal: their first cells stand at the same address, the lowest
that does not read as unlisted. -/
theorem Memory.eq_of_read_eq {m n : Memory} (hm : m.wf) (hn : n.wf) (h : ∀ a, m.read a = n.read a) : m = n := by
  induction m generalizing n with
  | nil =>
    cases n with
    | nil => rfl
    | cons d n => exact absurd (h d.1).symm (Memory.read_head_ne hn)
  | cons c m ih =>
    cases n with
    | nil => exact absurd (h c.1) (Memory.read_head_ne hm)
    | cons d n =>
      obtain ⟨b, w⟩ := c
      obtain ⟨b', w'⟩ := d
      rcases Nat.lt_trichotomy b b' with hlt | rfl | hlt
      · exact absurd ((h b).trans (Memory.read_before_head hn hlt)) (Memory.read_head_ne hm)
      · have hw : w = w' := by simpa [Memory.read_cons] using h b
        have hmn : m = n := ih (Memory.wf_cons.1 hm).2.2 (Memory.wf_cons.1 hn).2.2 fun a => by
          rw [Memory.read_tail hm, Memory.read_tail hn, h a]
        rw [hw, hmn]
      · exact absurd ((h b').symm.trans (Memory.read_before_head hm hlt)) (Memory.read_head_ne hn)

/-- Settles O52: above 255 both memories read as unlisted, so they read alike everywhere. -/
theorem memoriesThatReadAlikeAreEqual : Obligations.MemoriesThatReadAlikeAreEqual := by
  intro m n hm hn h
  refine Memory.eq_of_read_eq hm hn fun a => ?_
  by_cases ha : a ≤ 255
  · exact h a ha
  · rw [Memory.read_eq_unlisted hm (by omega), Memory.read_eq_unlisted hn (by omega)]

/-! ## The loader -/

/-- Settles O53: what a read gives after the loader's write of consecutive cells. -/
theorem loadWritesTheImageFromAddressZero : Obligations.LoadWritesTheImageFromAddressZero := by
  intro s bytes hs
  refine ⟨fun hle => ?_, fun hgt => if_neg (by omega)⟩
  have hlen : 0 + bytes.length ≤ 256 := by omega
  have hread := Memory.read_writeFrom hs.mem_wf bytes hlen
  refine ⟨_, if_pos hle, rfl, ⟨Memory.writeFrom_wf hs.mem_wf bytes hlen, hs.pc_le, hs.fl_bit, hs.params_wf⟩,
    fun i hi => ?_, fun a ha => ?_⟩
  · simp [hread, hi]
  · simp [hread, ha]

/-- The lines that are not skipped, so each holds a byte unless it is malformed. -/
abbrev codeLines (lines : List (List Char)) : List (List Char) := lines.filter fun l => classifyLine l != .skip

/-- A line the loader refuses when the next byte goes to address `a`: malformed, or a byte at 256. -/
def OffendingAt (a : Nat) (line : List Char) : Prop :=
  classifyLine line = .malformed ∨ (classifyLine line ≠ .skip ∧ a = 256)

/-- An offending line is reported under its own number. -/
theorem parseImage_offending {a : Nat} {line : List Char} (h : OffendingAt a line) (n : Nat)
    (rest : List (List Char)) : parseImage n a (line :: rest) = .error n := by
  rw [parseImage]
  rcases h with h | ⟨h, rfl⟩
  · rw [h]
  · cases hc : classifyLine line with
    | skip => exact absurd hc h
    | byte b => rfl
    | malformed => rfl

/-- The first offending line is reported: well-formed lines before it take one address each, unless skipped. -/
theorem parseImage_first_offending {good rest : List (List Char)} {bad : List Char} {a : Nat}
    (hgood : ∀ l ∈ good, classifyLine l ≠ .malformed) (hroom : a + (codeLines good).length ≤ 256)
    (hbad : OffendingAt (a + (codeLines good).length) bad) (n : Nat) :
    parseImage n a (good ++ bad :: rest) = .error (n + good.length) := by
  induction good generalizing n a with
  | nil => exact parseImage_offending hbad n rest
  | cons line lines ih =>
    obtain ⟨hline, hlines⟩ := List.forall_mem_cons.1 hgood
    have hnum : n + (line :: lines).length = n + 1 + lines.length := by
      rw [List.length_cons]
      omega
    rw [hnum, List.cons_append, parseImage]
    cases hc : classifyLine line with
    | malformed => exact absurd hc hline
    | skip =>
      have hcode : codeLines (line :: lines) = codeLines lines := List.filter_cons_of_neg (by simp [hc])
      rw [hcode] at hroom hbad
      exact ih hlines hroom hbad (n + 1)
    | byte b =>
      have hcode : (codeLines (line :: lines)).length = (codeLines lines).length + 1 := by
        rw [codeLines, List.filter_cons_of_pos (by simp [hc]), List.length_cons]
      rw [hcode, ← Nat.add_assoc, Nat.add_right_comm] at hroom hbad
      simp only [ih hlines hroom hbad (n + 1), if_pos (show a < 256 by omega)]

/-- Settles O54: the parser reports the line, the load takes the error, and a Faulted block has no step. -/
theorem offendingLineIsReportedAndNoStepRuns : Obligations.OffendingLineIsReportedAndNoStepRuns := by
  intro s good rest bad hgood hroom hbad
  have hparse : parseImage 1 0 (good ++ bad :: rest) = .error (1 + good.length) :=
    parseImage_first_offending hgood (by rwa [Nat.zero_add]) (by rwa [Nat.zero_add]) 1
  have hload : s.loadImage (good ++ bad :: rest) = withError s (.malformedProgramLine (good.length + 1)) := by
    rw [State.loadImage, hparse, Nat.add_comm 1]
    rfl
  refine ⟨hload, ?_⟩
  rw [hload]
  rfl

/-! ## Runs under fuel -/

/-- A run that has ended is observed whatever the fuel. -/
theorem runFor_of_observe {s : State} {o : Observation} (h : s.observe = some o) (n : Nat) :
    runFor n s = some o := by
  cases n with
  | zero => exact h
  | succ n => simp only [runFor, h]

theorem State.observe_eq_none_iff (s : State) : s.observe = none ↔ s.status = .running := by
  cases hs : s.status <;> simp [State.observe, hs]

/-- A Running block spends one unit of fuel on one step. -/
theorem runFor_succ {s t : State} (h : step s = .next t) (n : Nat) : runFor (n + 1) s = runFor n t := by
  simp only [runFor, s.observe_eq_none_iff.2 (step_cases h).1, h]

/-- Settles O55, by induction on the fuel that sufficed. -/
theorem moreFuelGivesTheSameObservation : Obligations.MoreFuelGivesTheSameObservation := by
  intro n
  induction n with
  | zero => exact fun k s o h => runFor_of_observe h (0 + k)
  | succ n ih =>
    intro k s o h
    cases hobs : s.observe with
    | some o' =>
      rw [runFor_of_observe hobs] at h ⊢
      exact h
    | none =>
      obtain ⟨t, ht⟩ := step_exists_next (s.observe_eq_none_iff.1 hobs)
      rw [runFor_succ ht] at h
      rw [Nat.add_right_comm, runFor_succ ht]
      exact ih k t o h

end Sys2Proof.Machine
end

section
/-! SUPPORT. LDI, PRN, HLT and the ALU's instructions (`41_register_and_system.md`, `42_alu.md`). -/

namespace Sys2Proof.Machine

/-- The effect of an instruction that writes one register and advances past two operand bytes. -/
theorem State.setReg_advance_frame (s : State) (a : RegIdx) (v : Byte) :
    ((s.setReg a v).advance 2).reg a = v ∧ ((s.setReg a v).advance 2).pc = s.pc + 3 ∧
      RegsKeptExcept [a] s ((s.setReg a v).advance 2) ∧ MemKept s ((s.setReg a v).advance 2) ∧
      ((s.setReg a v).advance 2).fl = s.fl ∧ ((s.setReg a v).advance 2).status = s.status ∧
      ((s.setReg a v).advance 2).out = s.out ∧ ((s.setReg a v).advance 2).params = s.params :=
  ⟨s.reg_setReg_self a v, rfl, fun _ hr => s.reg_setReg_ne v (mt List.mem_singleton.2 hr), fun _ => rfl, rfl, rfl,
    rfl, rfl⟩

/-- Settles O27: the register check, then LDI's effect. -/
theorem ldiLoadsTheImmediate : Obligations.LdiLoadsTheImmediate := by
  intro s ra imm
  refine ⟨⟨fun _ => rfl, rfl⟩, fun h => s.withReg_bad .ldi h _, fun r hr => ?_⟩
  exact ⟨_, exec_of_effect (.ldi hr), s.setReg_advance_frame r imm⟩

/-- Settles O28: the register check, then PRN's effect. -/
theorem prnAppendsTheRegister : Obligations.PrnAppendsTheRegister := by
  intro s ra
  refine ⟨⟨fun _ => rfl, rfl⟩, fun h => s.withReg_bad .prn h _, fun r hr => ?_⟩
  exact ⟨_, exec_of_effect (.prn hr), rfl, rfl, fun _ _ => rfl, fun _ => rfl, rfl, rfl, rfl⟩

/-- Settles O29: HLT has no check, and its effect is the Halted status and the advance. -/
theorem hltHaltsWithExitStatusZero : Obligations.HltHaltsWithExitStatusZero :=
  fun _ => ⟨⟨fun _ => rfl, rfl⟩, _, exec_of_effect .hlt, rfl, rfl, fun _ _ => rfl, fun _ => rfl, rfl, rfl, rfl⟩

/-! ## The text of a printed value -/

theorem decimalDigit_toNat {n : Nat} (h : n < 10) : (decimalDigit n).toNat = 48 + n := by
  revert n
  decide

theorem decimalDigit_ne_zero {n : Nat} (h : n < 10) (h0 : n ≠ 0) : decimalDigit n ≠ '0' := by
  intro he
  have hval := decimalDigit_toNat h
  rw [he] at hval
  have : '0'.toNat = 48 := rfl
  omega

/-- The digits of a byte as numbers: one to three, below 10, which read back as the byte, with no leading 0. -/
theorem decimalDigits_eq_map (v : Byte) :
    ∃ ds : List Nat, decimalDigits v = ds.map decimalDigit ∧ (∀ d ∈ ds, d < 10) ∧
      ds.foldl (fun n d => 10 * n + d) 0 = v.toNat ∧ (ds.length = 1 ∨ ∃ d tail, ds = d :: tail ∧ d ≠ 0) := by
  have hv := v.isLt
  by_cases h10 : v.toNat < 10
  · exact ⟨[v.toNat], by simp [decimalDigits, h10], by simpa using h10, Nat.zero_add _, .inl rfl⟩
  · by_cases h100 : v.toNat < 100
    · refine ⟨[v.toNat / 10, v.toNat % 10], by simp [decimalDigits, h10, h100], ?_, ?_, .inr ⟨_, _, rfl, by omega⟩⟩
      · intro d hd
        simp only [List.mem_cons, List.not_mem_nil, or_false] at hd
        omega
      · simp only [List.foldl]
        omega
    · refine ⟨[v.toNat / 100, v.toNat / 10 % 10, v.toNat % 10], by simp [decimalDigits, h10, h100], ?_, ?_,
        .inr ⟨_, _, rfl, by omega⟩⟩
      · intro d hd
        simp only [List.mem_cons, List.not_mem_nil, or_false] at hd
        omega
      · simp only [List.foldl]
        omega

/-- Digit characters read back as their numbers do. -/
theorem foldl_map_decimalDigit {ds : List Nat} (h : ∀ d ∈ ds, d < 10) (n : Nat) :
    (ds.map decimalDigit).foldl (fun n c => 10 * n + (c.toNat - 48)) n = ds.foldl (fun n d => 10 * n + d) n := by
  induction ds generalizing n with
  | nil => rfl
  | cons d ds ih =>
    obtain ⟨hd, hds⟩ := List.forall_mem_cons.1 h
    rw [List.map_cons, List.foldl_cons, List.foldl_cons, decimalDigit_toNat hd, Nat.add_sub_cancel_left, ih hds]

/-- Settles O30: the printed characters are those of the byte's digits. -/
theorem printedTextIsTheDecimalNumber : Obligations.PrintedTextIsTheDecimalNumber := by
  intro v
  refine ⟨List.append_nil _, fun out => List.flatMap_append .., ?_⟩
  obtain ⟨ds, hmap, hlt, hval, hlead⟩ := decimalDigits_eq_map v
  rw [hmap, foldl_map_decimalDigit hlt, List.forall_mem_map, List.length_map]
  refine ⟨hval, fun d hd => ?_, hlead.imp_right ?_⟩
  · have hd10 := hlt d hd
    rw [decimalDigit_toNat hd10]
    omega
  · rintro ⟨d, tail, rfl, hd0⟩ hhead
    exact decimalDigit_ne_zero (hlt d List.mem_cons_self) hd0 (Option.some.inj hhead)

/-! ## The ALU -/

/-- An ALU instruction whose operation answers a value: what it writes and what it keeps. -/
theorem State.alu_value_frame {s : State} {op : Mnemonic} {ra rb v : Byte} {a b : RegIdx} (ha : Names ra a)
    (hb : Names rb b) (hv : aluApply op (s.reg a) (s.reg b) = .value v) :
    ∃ t, s.alu op ra rb = .next t ∧ t.reg a = v ∧ t.pc = s.pc + 3 ∧ RegsKeptExcept [a] s t ∧ MemKept s t ∧
      t.fl = s.fl ∧ t.status = s.status ∧ t.out = s.out ∧ t.params = s.params :=
  ⟨_, State.alu_value ha hb hv, s.setReg_advance_frame a v⟩

/-- The second operand's check, the first one being legal. -/
theorem State.alu_bad_second_of_le (s : State) (op : Mnemonic) {ra rb : Byte} (ha : ra.toNat ≤ 7)
    (hb : 7 < rb.toNat) :
    s.alu op ra rb = .next (s.raise (.addressOutOfRange .register rb.toNat s.pc (some (s.opcodeOf op)))) := by
  obtain ⟨a, ha⟩ := exists_names ha
  exact s.alu_bad_second op ha hb

/-- Under the default map without ALU_EXT, a byte of SUB or DIV raises UnknownOpcode (rule R78). -/
theorem step_unknown_default {s : State} {b : Byte} (hs : s.status = .running) (hpc : s.pc ≤ 255)
    (hb : s.mem.read s.pc = b) (hmap : s.params.opcodeMap = .ls8) (hext : s.params.aluExt = false)
    (hnone : OpcodeMap.ls8.lookup false b = none) : step s = .next (withError s (.unknownOpcode s.pc b)) := by
  have h := step_unknown hs hpc (by rw [hmap, hext, hb, hnone])
  rwa [hb] at h

/-- Settles O31: the two register checks, then the ALU's sum. -/
theorem addAddsModulo256 : Obligations.AddAddsModulo256 := by
  intro s ra rb
  refine ⟨⟨fun _ => rfl, rfl⟩, s.alu_bad_first .add rb, s.alu_bad_second_of_le .add, fun a b ha hb => ?_⟩
  obtain ⟨t, ht, hv, hframe⟩ := State.alu_value_frame (op := .add) ha hb rfl
  exact ⟨t, ht, by rw [hv, BitVec.toNat_ofNat], hframe⟩

/-- Settles O32: the two register checks, then the ALU's product. -/
theorem mulMultipliesModulo256 : Obligations.MulMultipliesModulo256 := by
  intro s ra rb
  refine ⟨⟨fun _ => rfl, rfl⟩, s.alu_bad_first .mul rb, s.alu_bad_second_of_le .mul, fun a b ha hb => ?_⟩
  obtain ⟨t, ht, hv, hframe⟩ := State.alu_value_frame (op := .mul) ha hb rfl
  exact ⟨t, ht, by rw [hv, BitVec.toNat_ofNat], hframe⟩

/-- The byte of an integer difference of two bytes, without a truncated subtraction. -/
theorem toNat_ofInt_sub (a b : Byte) :
    (BitVec.ofInt 8 ((a.toNat : Int) - (b.toNat : Int))).toNat = (256 + a.toNat - b.toNat) % 256 := by
  have := b.isLt
  rw [BitVec.toNat_ofInt]
  omega

/-- Settles O33: the two register checks, then the ALU's difference; without ALU_EXT the byte names nothing. -/
theorem subSubtractsModulo256 : Obligations.SubSubtractsModulo256 := by
  intro s ra rb
  refine ⟨⟨fun _ => rfl, rfl⟩, s.alu_bad_first .sub rb, s.alu_bad_second_of_le .sub, fun a b ha hb => ?_,
    fun hs hpc hb hmap hext => step_unknown_default hs hpc hb hmap hext (by decide)⟩
  obtain ⟨t, ht, hv, hframe⟩ := State.alu_value_frame (op := .sub) ha hb rfl
  exact ⟨t, ht, by rw [hv, toNat_ofInt_sub], hframe⟩

/-- Settles O34: the two register checks, the divisor's check, then the ALU's quotient, which fits in a byte; without
ALU_EXT the byte names nothing. -/
theorem divDividesOrRaisesDivisionByZero : Obligations.DivDividesOrRaisesDivisionByZero := by
  intro s ra rb
  refine ⟨⟨fun _ => rfl, rfl⟩, s.alu_bad_first .div rb, s.alu_bad_second_of_le .div,
    fun a b ha hb h0 => exec_div_zero ha hb h0, fun a b ha hb h0 => ?_,
    fun hs hpc hb hmap hext => step_unknown_default hs hpc hb hmap hext (by decide)⟩
  obtain ⟨t, ht, hv, hframe⟩ := State.alu_value_frame (op := .div) ha hb (if_neg h0)
  have hlt : (s.reg a).toNat / (s.reg b).toNat < 2 ^ 8 := (Nat.div_le_self ..).trans_lt (s.reg a).isLt
  exact ⟨t, ht, by rw [hv, BitVec.toNat_ofNat, Nat.mod_eq_of_lt hlt], hframe⟩

/-- The ALU has no operation but the four (rule R75). -/
theorem aluApply_unsupported {op : Mnemonic} (hadd : op ≠ .add) (hsub : op ≠ .sub) (hmul : op ≠ .mul)
    (hdiv : op ≠ .div) (a b : Byte) : aluApply op a b = .unsupported := by
  cases op with
  | add => exact absurd rfl hadd
  | sub => exact absurd rfl hsub
  | mul => exact absurd rfl hmul
  | div => exact absurd rfl hdiv
  | _ => rfl

/-- Settles O35: the ALU's answer for another operation is taken as the error. -/
theorem aluRefusesOtherOperations : Obligations.AluRefusesOtherOperations := by
  intro s op ra rb a b ha hb hadd hsub hmul hdiv
  rw [s.alu_names op ha hb, aluApply_unsupported hadd hsub hmul hdiv]
  rfl

end Sys2Proof.Machine
end

section
/-! SUPPORT. The stack's instructions (`43_stack_and_call.md`): a push's store and a pop's increment, each said
once. -/

namespace Sys2Proof.Machine

/-! ## SP and the store of a push -/

@[simp] theorem State.decSp_sp (s : State) : s.decSp.sp = s.pushAddr := by
  rw [State.sp, State.decSp_reg, if_pos rfl, State.pushAddr]

@[simp] theorem State.incSp_sp (s : State) : s.incSp.sp = s.sp + 1 := by
  rw [State.sp, State.incSp_reg, if_pos rfl]

theorem State.setReg_sp_ne (s : State) {r : RegIdx} (v : Byte) (h : r ≠ 7) : (s.setReg r v).sp = s.sp :=
  s.reg_setReg_ne v h.symm

theorem State.setReg_sp_self (s : State) (v : Byte) : (s.setReg spIndex v).sp = v :=
  s.reg_setReg_self spIndex v

/-- SP's post-increment undoes its pre-decrement. -/
theorem State.pushAddr_add_one (s : State) : s.pushAddr + 1 = s.sp := by
  rw [State.pushAddr]
  exact sub_add_cancel s.sp 1

/-- The store of PUSH and CALL, after SP's pre-decrement: SP, the byte stored, and what is kept. -/
theorem State.pushStore_frame {s : State} (hs : s.mem.wf) (hp : s.pushOk = true) (v : Byte) :
    (s.decSp.store s.pushAddr v).sp.toNat = s.sp.toNat - 1 ∧
      (s.decSp.store s.pushAddr v).mem.read (s.sp.toNat - 1) = v ∧
      RegsKeptExcept [7] s (s.decSp.store s.pushAddr v) ∧
      MemKeptExcept (s.sp.toNat - 1) s (s.decSp.store s.pushAddr v) := by
  rw [← s.pushAddr_toNat hp]
  refine ⟨by simp, ?_, fun r hr => s.reg_setReg_ne _ (mt List.mem_singleton.2 hr), fun a ha => ?_⟩
  · rw [State.store_mem, State.decSp_mem, Memory.read_write hs, if_pos rfl]
  · rw [State.store_mem, State.decSp_mem, Memory.read_write hs, if_neg ha]

/-- Where SP is as a push left it, a pop is within the stack's bounds. -/
theorem State.popOk_of_pushed {s t : State} (hp : s.pushOk = true) (hsp : t.sp = s.pushAddr)
    (hparams : t.params = s.params) : t.popOk = true := by
  obtain ⟨hlow, hhigh⟩ := s.pushOk_iff.1 hp
  rw [State.popOk_iff, hsp, hparams, s.pushAddr_toNat hp]
  omega

/-! ## PUSH -/

/-- Settles O36: the register check, the stack's bounds, then PUSH's effect. -/
theorem pushStoresBelowSp : Obligations.PushStoresBelowSp := by
  intro s ra
  refine ⟨⟨fun _ => rfl, rfl⟩, fun h => s.withReg_bad .push h _, fun hra hsp => ?_, fun r hr hs hlow hhigh => ?_⟩
  · obtain ⟨r, hr⟩ := exists_names hra
    have hp := s.pushOk_eq_false_iff.2 (hsp.imp_left (BitVec.eq_of_toNat_eq ·))
    exact (s.withReg_names .push hr _).trans (s.withPush_bad .push _ hp)
  · have hp := s.pushOk_iff.2 ⟨hlow, hhigh⟩
    obtain ⟨hsp, hread, hregs, hmem⟩ := State.pushStore_frame hs hp (s.decSp.reg r)
    exact ⟨_, exec_of_effect (.push hr hp), hsp, hread, rfl, hregs, hmem, rfl, rfl, rfl, rfl⟩

/-- PUSH of a register other than R7 stores its value. -/
theorem exec_push_ne_sp {s : State} {ra : Byte} {r : RegIdx} (hr : Names ra r) (h7 : r ≠ 7) (hp : s.pushOk = true) :
    exec (.push ra) s = .next ((s.decSp.store s.pushAddr (s.reg r)).advance 1) := by
  rw [exec_of_effect (.push hr hp), s.decSp_reg, if_neg h7]

/-- Settles O26: the pc after the PUSH stands at the byte below SP, where the next step fetches what was stored. -/
theorem storeIsSeenByTheNextFetch : Obligations.StoreIsSeenByTheNextFetch := by
  intro s t ra r hs hrun hr h7 hp ht hpc hnone
  rw [exec_push_ne_sp hr h7 hp] at ht
  cases ht
  obtain ⟨-, hread, -, -⟩ := State.pushStore_frame hs.mem_wf hp (s.reg r)
  have hsp := s.sp.isLt
  rw [← hpc, Nat.add_sub_cancel] at hread
  have hfetch := step_unknown (s := (s.decSp.store s.pushAddr (s.reg r)).advance 1) hrun (by omega)
    ((congrArg (s.params.opcodeMap.lookup s.params.aluExt) hread).trans hnone)
  exact hfetch.trans (by rw [State.advance_mem, hread])

/-! ## POP -/

/-- The increment of a byte other than 255 does not wrap. -/
theorem toNat_add_one {v : Byte} (h : v ≠ 255) : (v + 1).toNat = v.toNat + 1 := by
  bv_omega

/-- Settles O37: the register check, the stack's bounds, the check of R7, then POP's effect. -/
theorem popLoadsFromSp : Obligations.PopLoadsFromSp := by
  intro s ra
  refine ⟨⟨fun _ => rfl, rfl⟩, fun h => s.withReg_bad .pop h _, fun hra hsp => ?_, fun hr hsp hv => ?_,
    fun r hr h7 hsp => ?_, fun hr hsp hv => ?_⟩
  · obtain ⟨r, hr⟩ := exists_names hra
    exact (s.withReg_names .pop hr _).trans (s.withPop_bad .pop _ (s.popOk_eq_false_iff.2 hsp))
  · exact ((s.withReg_names .pop hr _).trans (s.withPop_ok .pop _ (s.popOk_iff.2 hsp))).trans (if_pos ⟨rfl, hv⟩)
  · have hp := s.popOk_iff.2 hsp
    have hsp' : (s.setReg r (s.load s.sp)).incSp.sp.toNat = s.sp.toNat + 1 := by
      rw [State.incSp_sp, State.setReg_sp_ne _ _ h7, s.incSp_toNat hp]
    have hreg : (s.setReg r (s.load s.sp)).incSp.reg r = s.load s.sp := by
      rw [State.incSp_reg, if_neg h7, State.reg_setReg_self]
    refine ⟨_, exec_of_effect (.pop hr hp fun h => h7 h.1), hreg, hsp', rfl, fun q hq => ?_, fun _ => rfl, rfl, rfl,
      rfl, rfl⟩
    rw [List.mem_pair, not_or] at hq
    exact (State.reg_setReg_ne _ _ hq.2).trans (s.reg_setReg_ne _ hq.1)
  · have hsp' : (s.setReg 7 (s.load s.sp)).incSp.sp.toNat = (s.load s.sp).toNat + 1 := by
      rw [State.incSp_sp, State.setReg_sp_self, toNat_add_one (v := s.load s.sp) hv]
    refine ⟨_, exec_of_effect (.pop hr (s.popOk_iff.2 hsp) fun h => hv h.2), hsp', rfl, fun q hq => ?_, fun _ => rfl,
      rfl, rfl, rfl, rfl⟩
    have hq7 := mt List.mem_singleton.2 hq
    exact (State.reg_setReg_ne _ _ hq7).trans (s.reg_setReg_ne _ hq7)

/-! ## CALL and RET -/

/-- Settles O38: the register check, the stack's bounds, the check of the return address, then CALL's effect. -/
theorem callStoresReturnAddressAndJumps : Obligations.CallStoresReturnAddressAndJumps := by
  intro s ra
  refine ⟨⟨fun _ => rfl, rfl⟩, fun h => s.withReg_bad .call h _, fun hra hsp => ?_, fun hra hlow hhigh hpc => ?_,
    fun r hr hs hlow hhigh hpc => ?_⟩
  · obtain ⟨r, hr⟩ := exists_names hra
    have hp := s.pushOk_eq_false_iff.2 (hsp.imp_left (BitVec.eq_of_toNat_eq ·))
    exact (s.withReg_names .call hr _).trans (s.withPush_bad .call _ hp)
  · obtain ⟨r, hr⟩ := exists_names hra
    have hp := s.pushOk_iff.2 ⟨hlow, hhigh⟩
    exact ((s.withReg_names .call hr _).trans (s.withPush_ok .call _ hp)).trans (if_pos hpc)
  · have hp := s.pushOk_iff.2 ⟨hlow, hhigh⟩
    obtain ⟨hsp, hread, hregs, hmem⟩ := State.pushStore_frame hs hp (BitVec.ofNat 8 (s.pc + 2))
    refine ⟨_, exec_of_effect (.call hr hp (by omega)), hsp, ?_, rfl, hregs, hmem, rfl, rfl, rfl, rfl⟩
    rw [State.jumpTo_mem, hread, BitVec.toNat_ofNat, Nat.mod_eq_of_lt (by omega)]

/-- Settles O39: the stack's bounds, then RET's effect; after a PUSH the byte at SP is the one pushed. -/
theorem retJumpsToThePoppedByte : Obligations.RetJumpsToThePoppedByte := by
  intro s
  refine ⟨⟨fun _ => rfl, rfl⟩, fun hsp => (exec_ret s).trans (s.withPop_bad _ _ (s.popOk_eq_false_iff.2 hsp)),
    fun hsp => ?_, fun ra r hr h7 hs hlow hhigh => ?_⟩
  · have hp := s.popOk_iff.2 hsp
    exact ⟨_, exec_of_effect (.ret hp), rfl, by rw [State.jumpTo_sp, State.incSp_sp, s.incSp_toNat hp],
      fun r hr => s.reg_setReg_ne _ (mt List.mem_singleton.2 hr), fun _ => rfl, rfl, rfl, rfl, rfl⟩
  · have hp := s.pushOk_iff.2 ⟨hlow, hhigh⟩
    obtain ⟨hsp, hread, -, -⟩ := State.pushStore_frame hs hp (s.reg r)
    have hpop := State.popOk_of_pushed (t := (s.decSp.store s.pushAddr (s.reg r)).advance 1) hp (by simp) rfl
    refine ⟨_, _, exec_push_ne_sp hr h7 hp, exec_of_effect (.ret hpop), ?_⟩
    rw [State.jumpTo_pc, State.load, State.advance_sp, hsp, State.advance_mem, hread]

/-! ## Round trips -/

/-- States whose registers hold the same have the same register file. -/
theorem State.x_ext {s t : State} (h : ∀ r, t.reg r = s.reg r) : t.x = s.x :=
  Vector.ext fun i hi => h ⟨i, hi⟩

/-- Writing back what a register holds changes no register. -/
theorem State.reg_setReg_reg (s : State) (r q : RegIdx) : (s.setReg r (s.reg r)).reg q = s.reg q := by
  rw [State.reg_setReg]
  split
  · next h => rw [h]
  · rfl

/-- A push leaves SP below 255, so POP R7 of what PUSH R7 stored does not raise. -/
theorem State.pushAddr_ne_255 {s : State} (hp : s.pushOk = true) : s.pushAddr ≠ 255 := by
  intro h
  have haddr := s.pushAddr_toNat hp
  have hsp := s.sp.isLt
  rw [h] at haddr
  have : (255 : Byte).toNat = 255 := rfl
  omega

/-- Settles O40: POP loads into the register what it holds already, since PUSH stored its value after SP's decrement,
and SP's increment undoes that. -/
theorem pushThenPopRestoresTheRegisters : Obligations.PushThenPopRestoresTheRegisters := by
  intro s ra hra hs hlow hhigh
  obtain ⟨r, hr⟩ := exists_names hra
  have hp := s.pushOk_iff.2 ⟨hlow, hhigh⟩
  obtain ⟨hsp, hread, -, hmem⟩ := State.pushStore_frame hs hp (s.decSp.reg r)
  have hpush := exec_of_effect (.push hr hp)
  generalize ht : (s.decSp.store s.pushAddr (s.decSp.reg r)).advance 1 = t at hpush
  have htreg : ∀ q, t.reg q = s.decSp.reg q := fun q => by rw [← ht, State.advance_reg, State.store_reg]
  have htsp : t.sp = s.pushAddr := (htreg spIndex).trans s.decSp_sp
  have hload : t.load t.sp = t.reg r := by
    rw [htreg, ← hread, ← hsp, ← ht]
    rfl
  have hpop : t.popOk = true := State.popOk_of_pushed hp htsp (by rw [← ht]; rfl)
  have hnot : ¬ (r = 7 ∧ t.load t.sp = 255) := by
    rintro ⟨rfl, h255⟩
    exact State.pushAddr_ne_255 hp (htsp.symm.trans (hload.symm.trans h255))
  refine ⟨t, _, hpush, exec_of_effect (.pop hr hpop hnot), State.x_ext fun q => ?_, by rw [← ht]; rfl,
    by rw [← ht]; exact hmem⟩
  rw [hload, State.advance_reg, State.incSp_reg, State.sp, State.reg_setReg_reg, State.reg_setReg_reg]
  split
  · next h7 => rw [h7, ← State.sp, htsp, s.pushAddr_add_one, State.sp]
  · next h7 => rw [htreg, s.decSp_reg, if_neg h7]

/-- Settles O41: RET finds the return address CALL stored, which fits in a byte, and undoes SP's decrement. -/
theorem callThenRetResumesAfterTheCall : Obligations.CallThenRetResumesAfterTheCall := by
  intro s t v ra hra hs _ hlow hhigh hpc ht hvsp hvmem hvparams
  obtain ⟨r, hr⟩ := exists_names hra
  have hp := s.pushOk_iff.2 ⟨hlow, hhigh⟩
  have heff := Effect.call hr hp (by omega)
  cases heff.eq_of_exec ht
  obtain ⟨hsp, hread, -, -⟩ := State.pushStore_frame hs hp (BitVec.ofNat 8 (s.pc + 2))
  have hvaddr : v.sp = s.pushAddr := by simpa using hvsp
  have hload : v.load v.sp = BitVec.ofNat 8 (s.pc + 2) := by
    rw [State.load, hvsp, hvmem, State.jumpTo_sp, hsp, State.jumpTo_mem, hread]
  refine ⟨_, exec_of_effect (.ret (State.popOk_of_pushed hp hvaddr hvparams)), ?_, ?_⟩
  · rw [hload, State.jumpTo_pc, BitVec.toNat_ofNat, Nat.mod_eq_of_lt (by omega)]
  · rw [State.jumpTo_sp, State.incSp_sp, hvaddr, s.pushAddr_add_one]

end Sys2Proof.Machine
end

section
/-! SUPPORT. CMP and the jumps (`44_compare_and_jump.md`). -/

namespace Sys2Proof.Machine

/-- Settles O42: the two register checks, then CMP's effect; no other instruction changes FL. -/
theorem cmpSetsTheEqualityFlag : Obligations.CmpSetsTheEqualityFlag := by
  intro s ra rb
  refine ⟨⟨fun _ => rfl, rfl⟩, fun h => s.withReg_bad .cmp h _, fun hra hrb => ?_, fun a b ha hb => ?_,
    fun i t h hfl => ?_⟩
  · obtain ⟨a, ha⟩ := exists_names hra
    exact (s.withReg_names .cmp ha _).trans (s.withReg_bad .cmp hrb _)
  · exact ⟨_, exec_of_effect (.cmp ha hb), fun h => if_pos h, fun h => if_neg h, rfl, fun _ _ => rfl, fun _ => rfl,
      rfl, rfl, rfl⟩
  · by_contra hn
    exact hfl (exec_fl_eq h fun qa qb hi => hn ⟨qa, qb, hi⟩)

/-- Settles O43: the register check, then JMP's effect. -/
theorem jmpJumpsToTheRegister : Obligations.JmpJumpsToTheRegister := by
  intro s ra
  refine ⟨⟨fun _ => rfl, rfl⟩, fun h => s.withReg_bad .jmp h _, fun r hr => ?_, fun r hr hself => ?_⟩
  · exact ⟨_, exec_of_effect (.jmp hr), rfl, fun _ _ => rfl, fun _ => rfl, rfl, rfl, rfl, rfl⟩
  · rw [exec_of_effect (.jmp hr), State.jumpTo, hself]

theorem exec_jeq_taken {s : State} {ra : Byte} {r : RegIdx} (hr : Names ra r) (h : s.fl = 1) :
    exec (.jeq ra) s = .next (s.jumpTo (s.reg r)) := by
  rw [exec_of_effect (.jeq hr), if_pos (s.flEqual_iff.2 h)]

theorem exec_jeq_not_taken {s : State} {ra : Byte} {r : RegIdx} (hr : Names ra r) (h : s.fl ≠ 1) :
    exec (.jeq ra) s = .next (s.advance 1) := by
  rw [exec_of_effect (.jeq hr), if_neg (mt s.flEqual_iff.1 h)]

theorem exec_jne_taken {s : State} {ra : Byte} {r : RegIdx} (hr : Names ra r) (h : s.fl = 0) :
    exec (.jne ra) s = .next (s.jumpTo (s.reg r)) := by
  rw [exec_of_effect (.jne hr), if_pos (s.flNotEqual_iff.2 h)]

theorem exec_jne_not_taken {s : State} {ra : Byte} {r : RegIdx} (hr : Names ra r) (h : s.fl ≠ 0) :
    exec (.jne ra) s = .next (s.advance 1) := by
  rw [exec_of_effect (.jne hr), if_neg (mt s.flNotEqual_iff.1 h)]

/-- A fetch at 256 raises (rule R60). -/
theorem step_at_256 {s : State} (hs : s.status = .running) (hpc : s.pc = 256) :
    step s = .next (withError s (.addressOutOfRange .memory 256 256 none)) := by
  have h := step_of_fetch_error hs (State.fetchDecode_above (by omega))
  rwa [hpc] at h

/-- Settles O44: the register check, then the jump or the advance, by FL; the advance from 254 leads to 256. -/
theorem jeqJumpsWhenFlagIsOne : Obligations.JeqJumpsWhenFlagIsOne := by
  intro s ra
  refine ⟨⟨fun _ => rfl, rfl⟩, fun h => s.withReg_bad .jeq h _, fun r hr => ?_, fun r t hr hs hpc hfl ht => ?_⟩
  · by_cases hfl : s.fl = 1
    · exact ⟨_, exec_jeq_taken hr hfl, fun _ => rfl, fun hn => absurd hfl hn, fun _ _ => rfl, fun _ => rfl, rfl, rfl,
        rfl, rfl⟩
    · exact ⟨_, exec_jeq_not_taken hr hfl, fun h => absurd h hfl, fun _ => rfl, fun _ _ => rfl, fun _ => rfl, rfl, rfl,
        rfl, rfl⟩
  · rw [exec_jeq_not_taken hr hfl] at ht
    cases ht
    exact step_at_256 hs (by rw [State.advance_pc, hpc])

/-- Settles O45: the register check, then the jump or the advance, by FL; of FL 0 and 1, JEQ jumps at 1 and JNE
at 0. -/
theorem jneJumpsWhenFlagIsZero : Obligations.JneJumpsWhenFlagIsZero := by
  intro s ra
  refine ⟨⟨fun _ => rfl, rfl⟩, fun h => s.withReg_bad .jne h _, fun r hr => ?_, fun r t u hr hfl ht hu => ?_⟩
  · by_cases hfl : s.fl = 0
    · exact ⟨_, exec_jne_taken hr hfl, fun _ => rfl, fun hn => absurd hfl hn, fun _ _ => rfl, fun _ => rfl, rfl, rfl,
        rfl, rfl⟩
    · exact ⟨_, exec_jne_not_taken hr hfl, fun h => absurd h hfl, fun _ => rfl, fun _ _ => rfl, fun _ => rfl, rfl, rfl,
        rfl, rfl⟩
  · rcases hfl with hfl | hfl
    · rw [exec_jeq_not_taken hr (by simp [hfl])] at ht
      rw [exec_jne_taken hr hfl] at hu
      cases ht
      cases hu
      exact .inr ⟨rfl, rfl⟩
    · rw [exec_jeq_taken hr hfl] at ht
      rw [exec_jne_not_taken hr (by simp [hfl])] at hu
      cases ht
      cases hu
      exact .inl ⟨rfl, rfl⟩

end Sys2Proof.Machine
end
